-- ==== Sys2Proof/Word.lean ====
section
/-! DEFINITION. The unit of data: one byte (00_scope.md R1). -/

namespace Sys2Proof

/-- A cell of the tape, a source byte, a stream byte: an integer 0 to 255, arithmetic modulo 256
(00_scope.md R1, section 5.1). Nothing in the machine is wider (20_memory.md R32). -/
abbrev Byte := BitVec 8

end Sys2Proof
end

