-- ==== Sys2Proof/Config.lean ====
section
/-! DEFINITION. The implementation parameters (00_scope.md section 4). They are constants of one machine,
fixed before reset (10_state.md R25); a State carries the ones its machine was reset with, because `step`
takes a State and nothing else (log 1). `CELL_BITS` is the width of Byte. The machine draws no free value
(40_execution_cycle.md R74), so nothing here is opaque. -/

namespace Sys2Proof

/-- The parameters of 00_scope.md R2, R4, R5, R6. `none` is the spec's `unbounded`. -/
structure Config where
  /-- `TAPE_INIT`: cells at run start (R2). -/
  tapeInit : Nat
  /-- `TAPE_CAP`: the largest number of cells (R4). -/
  tapeCap : Option Nat
  /-- `PROG_CAP`: the largest number of opcodes (R5). -/
  progCap : Option Nat
  /-- `STRICT_OPENERS`: reject pending openers at load (R6). -/
  strictOpeners : Bool
deriving DecidableEq, Repr

/-- The values this hardware takes: 10, unbounded, unbounded, false (00_scope.md section 4; log 2). -/
def Config.bf8 : Config :=
  { tapeInit := 10, tapeCap := none, progCap := none, strictOpeners := false }

/-- `GROW_BLOCK`: cells appended at each growth, equal to `TAPE_INIT` (00_scope.md R3). -/
def Config.growBlock (c : Config) : Nat := c.tapeInit

end Sys2Proof
end

