-- ==== Sys2Proof/Syntax.lean ====
section
/-! DEFINITION. The eight opcodes (00_scope.md R8, 30_encoding.md R52). -/

namespace Sys2Proof

/-- One stored opcode: "tagged by identity only (no payload)" (R8, R50, R52). A bracket's paired index is no
part of it: it is computed from the whole program and looked up when the bracket executes (R62). -/
inductive Instr where
  | moveRight
  | moveLeft
  | increment
  | decrement
  | output
  | input
  | jumpIfZero
  | jumpIfNonzero
deriving DecidableEq, Repr

end Sys2Proof
end

