-- ==== Sys2Proof/Machine/State.lean ====
section
/-! DEFINITION. The state of the core and its environment (10_state.md), as plain data, and the state right
after reset. -/

namespace Sys2Proof.Machine

/-- Why a load or a run failed, with the info recorded beside it (60_exceptions.md R100). -/
inductive Cause where
  /-- Code 1, the Jump Table Builder: index of the closer (30_encoding.md R58) or of the last pending opener (R60). -/
  | unbalancedBracket (index : Nat)
  /-- Code 2, input: the stream is closed (43_io.md R91). -/
  | inputExhausted
  /-- Code 3, output: the write failed (43_io.md R90). -/
  | outputFailure
  /-- Code 4, jump-if-zero: an unpaired opener at a zero cell; the opener's index (44_control.md R95). -/
  | jumpTargetMissing (index : Nat)
  /-- Code 5, move-right: only with a finite TAPE_CAP (41_pointer.md R80). -/
  | tapeExhausted
  /-- Code 6, the Loader/Filter: only with a finite PROG_CAP (30_encoding.md R55). -/
  | programStoreExhausted
deriving DecidableEq, Repr

/-- Where the load phase stands: the loop variable of `Filter` (30_encoding.md R53) or of `BuildJt` (R57).
DESIGN CHOICE, safe (log 10): one iteration is one step; nothing outside the core can tell. -/
inductive LoadStage where
  | filter (k : Nat)
  | build (i : Nat)
deriving DecidableEq, Repr

/-- The status register (10_state.md R19). `cause` "is meaningful only when phase = Failed", so it is the
argument of `failed` (DESIGN CHOICE, safe: log 8). -/
inductive Phase where
  | loading (stage : LoadStage)
  | running
  | halted
  | failed (cause : Cause)
deriving DecidableEq, Repr

/-- The tape (10_state.md R12): cell `a` exists for `a < len`; `cells` lists the cells that are not 0, by rising
index (R28, log 5). What an unlisted cell reads as is in Machine/Memory.lean. -/
structure Memory where
  cells : List Host.Cell
  len : Nat
deriving DecidableEq, Repr

/-- The jump table (10_state.md R11), a partial map from index to index, keys rising. -/
abbrev JumpTable := List (Nat × Nat)

/-- The environment's answer to one `OutWrite` (43_io.md R92). -/
inductive OutAnswer where
  | accepted
  | failed
deriving DecidableEq, Repr

/-- A reset event with its inputs: "The configuration parameters and the source bytes src are inputs to reset"
(70_reset_and_hazards.md R130). -/
structure ResetRequest where
  cfg : Config
  src : List Byte
deriving DecidableEq, Repr

/-- The environment, as the core sees it through its ports (70_reset_and_hazards.md R134). -/
structure Env where
  /-- Bytes the IN port will deliver, front first (10_state.md R20). -/
  inp : List Byte
  /-- The host has closed the input: after `inp` the port answers `closed` (43_io.md R93). When false, a request
  that finds `inp` empty is not answered yet (R94; log 13). -/
  inClosed : Bool
  /-- Bytes the OUT port has accepted since run start, oldest first (10_state.md R21). -/
  out : List Byte
  /-- Bytes it accepted in earlier lifecycles: the model's own field, so that nothing accepted is ever withdrawn
  (R21, R140; log 16). -/
  outPast : List Byte
  /-- The answers to the coming writes, next first (43_io.md R92; log 14). -/
  outAns : List OutAnswer
  /-- The answer to every write after those; `none`: the host never answers (R94; log 14). -/
  outRest : Option OutAnswer
  /-- The RESET port: an event the core has not served yet (70_reset_and_hazards.md R134, R140; log 17). -/
  rst : Option ResetRequest
deriving DecidableEq, Repr

/-- "The complete state of a run is exactly (prog, jt, tape, pc, cur, phase, cause) plus the environment
(inp, out)" (10_state.md R27); beside it the inputs of reset, and the builder's stack. -/
structure State where
  /-- The parameters this machine was reset with (10_state.md R25; log 1). -/
  cfg : Config
  /-- The raw source bytes (20_memory.md R30, space SRC). -/
  src : List Byte
  /-- The builder's stack of pending openers, top first (10_state.md R22; log 22). -/
  bstk : List Nat
  /-- The instruction store (10_state.md R10). -/
  prog : List Instr
  /-- The jump table (10_state.md R11). -/
  jt : JumpTable
  /-- The data memory (10_state.md R12). -/
  tape : Memory
  /-- The program counter, an unbounded natural (10_state.md R14, R15; 00_scope.md R7; log 4). -/
  pc : Nat
  /-- The tape cursor, an unbounded natural (10_state.md R16, R17; log 4). -/
  cur : Nat
  /-- The status register (10_state.md R19). -/
  phase : Phase
  /-- The environment (10_state.md R20, R21). -/
  env : Env
deriving DecidableEq, Repr

/-- What stops the model. The spec's own failures are not here: a `raise` is a next state (60_exceptions.md R106). -/
inductive Fault where
  /-- Raised by an access to the current cell when `cur >= tlen`: no such cell exists (10_state.md R12). Safe: R18
  and R35 show no run reaches it (log 6). -/
  | noCell (index : Nat)
  /-- Raised by jump-if-nonzero at a non-zero cell when its index has no entry in the jump table. Safe: "always
  defined" for a program that loaded (44_control.md R96; log 7). -/
  | noTableEntry (index : Nat)
deriving DecidableEq, Repr

/-- Why the model would not say what an instruction does. -/
inductive Refusal where
  /-- An instruction whose meaning is not written yet, by its mnemonic. Safe. No arm of `exec` uses it. -/
  | notModelled (mnemonic : String)
deriving DecidableEq, Repr

/-- A tape before run start: none has been created (60_exceptions.md R106, log 18). -/
def Memory.absent : Memory := { cells := [], len := 0 }

/-- The environment of State.reset. DESIGN CHOICE, unsafe (log 15): no input and the input closed, every write
accepted, nothing written, no reset pending; the conventions of 95_test_vectors.md. -/
def Env.initial : Env :=
  { inp := [], inClosed := true, out := [], outPast := [], outAns := [], outRest := some .accepted, rst := none }

/-- The machine right after reset (10_state.md section 4, 70_reset_and_hazards.md R130): Loading, nothing loaded,
`pc` and `cur` 0, this hardware's parameters, an empty source (log 15). -/
def State.reset : State :=
  { cfg := Config.bf8, src := [], bstk := [], prog := [], jt := [], tape := Memory.absent, pc := 0, cur := 0,
    phase := .loading (.filter 0), env := Env.initial }

end Sys2Proof.Machine
end

