-- ==== Sys2Proof/Machine/Memory.lean ====
section
/-! DEFINITION. The tape and the jump table as stores: reading, writing, growing, their canonical form. -/

namespace Sys2Proof.Machine

/-- The entry of key `a` in a list of key and value pairs. -/
def assocLookup {α : Type} : List (Nat × α) → Nat → Option α
  | [], _ => none
  | (k, v) :: rest, a => if k = a then some v else assocLookup rest a

/-- Set the entry of key `a`, keeping rising keys rising. -/
def assocInsert {α : Type} (a : Nat) (v : α) : List (Nat × α) → List (Nat × α)
  | [] => [(a, v)]
  | (k, w) :: rest =>
    if a < k then (a, v) :: (k, w) :: rest
    else if a = k then (a, v) :: rest
    else (k, w) :: assocInsert a v rest

/-- Remove the entry of key `a`. -/
def assocErase {α : Type} (a : Nat) (l : List (Nat × α)) : List (Nat × α) :=
  l.filter fun e => e.1 ≠ a

/-- Every key of `l` is above `a`. -/
def keysAbove {α : Type} (a : Nat) : List (Nat × α) → Bool
  | [] => true
  | (k, _) :: rest => decide (a < k) && keysAbove a rest

/-- The canonical form of a sparse store: keys strictly rising. -/
def keysRising {α : Type} : List (Nat × α) → Bool
  | [] => true
  | (k, _) :: rest => keysAbove k rest && keysRising rest

/-- What a cell that nothing has written holds: 0 (10_state.md R13, R18; 41_pointer.md R80). -/
def unwrittenCell : Byte := 0#8

/-- `MemRead(a, 1)` (00_scope.md 5.3); `none`: cell `a` does not exist. -/
def Memory.read (m : Memory) (a : Nat) : Option Byte :=
  if a < m.len then some ((assocLookup m.cells a).getD unwrittenCell) else none

/-- `MemWrite(a, 1, v)` (00_scope.md 5.3), for a cell that exists. -/
def Memory.write (m : Memory) (a : Nat) (v : Byte) : Memory :=
  { m with cells := if v = unwrittenCell then assocErase a m.cells else assocInsert a v m.cells }

/-- `zeros(n)` (00_scope.md 5.1). -/
def Memory.zeros (n : Nat) : Memory := { cells := [], len := n }

/-- `tape ++ zeros(n)`: old cells keep their values (41_pointer.md R80). -/
def Memory.grow (m : Memory) (n : Nat) : Memory := { m with len := m.len + n }

/-- The canonical form: indices strictly rising, every listed cell exists and is not 0. Equal tapes are equal data. -/
def Memory.wf (m : Memory) : Bool :=
  keysRising m.cells && m.cells.all fun e => decide (e.1 < m.len) && e.2 != unwrittenCell

/-- `JtLookup(i)` (00_scope.md 5.3). -/
def JumpTable.lookup (jt : JumpTable) (i : Nat) : Option Nat := assocLookup jt i

/-- Record "both directions of the pairing" (30_encoding.md R57): opener `j` to closer `i`, then `i` to `j`. -/
def JumpTable.pair (jt : JumpTable) (j i : Nat) : JumpTable := assocInsert i j (assocInsert j i jt)

end Sys2Proof.Machine
end

