-- ==== Sys2Proof/Machine/Flags.lean ====
section
/-! DEFINITION. The machine has no flag, condition code or predicate: "The two conditional jumps test the current
cell itself" (10_state.md R24), and wrapping records no carry or borrow. This file holds those two tests. -/

namespace Sys2Proof.Machine

/-- jump-if-zero's test: the whole byte against 0 (44_control.md R95 corner case e). -/
def openerTaken (v : Byte) : Bool := v == 0#8

/-- jump-if-nonzero's test (44_control.md R96). -/
def closerTaken (v : Byte) : Bool := v != 0#8

end Sys2Proof.Machine
end

