-- ==== Sys2Proof/Machine/Operands.lean ====
section
/-! DEFINITION. The operand forms. No instruction has an explicit operand (30_encoding.md R62): the implicit ones
are `cur`, the current cell, and a bracket's paired index. -/

namespace Sys2Proof.Machine

/-- The one addressing mode, cursor-implicit: `EA = cur` (20_memory.md R33). -/
def State.effectiveAddress (s : State) : Nat := s.cur

/-- The current cell, `MemRead(cur, 1)` (20_memory.md R33). -/
def State.currentCell (s : State) : Option Byte := s.tape.read s.effectiveAddress

/-- A bracket instruction's paired index, `JtLookup(pc)`, read "only at their own index" (10_state.md R11). -/
def State.pairedIndex (s : State) : Option Nat := s.jt.lookup s.pc

/-- `(v + 1) mod 256` (42_arithmetic.md R85). -/
def cellIncremented (v : Byte) : Byte := v + 1#8

/-- `(v + 255) mod 256` (42_arithmetic.md R86). -/
def cellDecremented (v : Byte) : Byte := v + 255#8

/-- Use the current cell, or fault where it does not exist (log 6). -/
def State.withCurrentCell (s : State) (k : Byte → Host.Outcome State Fault Refusal) :
    Host.Outcome State Fault Refusal :=
  match s.currentCell with
  | some v => k v
  | none => .fault (.noCell s.effectiveAddress)

end Sys2Proof.Machine
end

