-- ==== Sys2Proof/Machine/Ops.lean ====
section
/-! DEFINITION. The shared operations over registers, memory and ports, and taking a failure. -/

namespace Sys2Proof.Machine

/-- `pc <- v`. -/
def State.setPc (s : State) (v : Nat) : State := { s with pc := v }

/-- `cur <- v`. -/
def State.setCur (s : State) (v : Nat) : State := { s with cur := v }

/-- Replace the tape. -/
def State.setTape (s : State) (m : Memory) : State := { s with tape := m }

/-- `phase <- p`. -/
def State.setPhase (s : State) (p : Phase) : State := { s with phase := p }

/-- Replace the environment (after a port transaction). -/
def State.setEnv (s : State) (e : Env) : State := { s with env := e }

/-- The last act of every instruction: "program counter += 1 (including after a jump reassigns it)"
(40_execution_cycle.md R72). -/
def State.advance (s : State) : State := s.setPc (s.pc + 1)

/-- `raise X(info)` (60_exceptions.md R106): `phase <- Failed`, the cause and its info recorded, nothing else.
There is no handler, no saved register and no return (R105, R109); a step that raises does not advance `pc`
(40_execution_cycle.md R73). After a run-time failure `tape`, `cur` and `pc` are unspecified (R107): the state before
the failure is carried along in them, as R73 and D13 say a model may, and claims compare failed states by
`State.SameForClaims`, which leaves them out (Safety.lean, log 9). -/
def State.raise (s : State) (c : Cause) : State := s.setPhase (.failed c)

/-- The successful end: "sets phase <- Halted, changes nothing else" (40_execution_cycle.md R71). -/
def State.halt (s : State) : State := s.setPhase .halted

/-- `Fetch(pc)`; `none` is the halt condition `pc >= plen` (40_execution_cycle.md R70, R71). -/
def State.fetch (s : State) : Option Instr := s.prog[s.pc]?

/-- Blocked at a port: "While blocked the engine holds all its state unchanged and does nothing else"
(20_memory.md R46). A step that changes nothing stands for it (DESIGN CHOICE, log 12). -/
def State.wait (s : State) : State := s

/-- `MemWrite(cur, 1, v)`, then the end of the instruction; a fault where the cell does not exist (log 6). -/
def State.storeCell (s : State) (v : Byte) : Host.Outcome State Fault Refusal :=
  if s.effectiveAddress < s.tape.len then .next (s.setTape (s.tape.write s.effectiveAddress v)).advance
  else .fault (.noCell s.effectiveAddress)

/-- `cur + 1` would reach a finite `TAPE_CAP` (41_pointer.md R80). -/
def State.atTapeCap (s : State) : Bool :=
  match s.cfg.tapeCap with
  | none => false
  | some cap => decide (cap ≤ s.cur + 1)

/-- The size of the next growth, `min(TAPE_INIT, TAPE_CAP - tlen)` (41_pointer.md R80, 00_scope.md R3). -/
def State.growthSize (s : State) : Nat :=
  match s.cfg.tapeCap with
  | none => s.cfg.growBlock
  | some cap => min s.cfg.growBlock (cap - s.tape.len)

/-- Append a block of zero cells when the cursor has reached the tape's length (41_pointer.md R80). -/
def State.growIfAtEnd (s : State) : State :=
  if s.cur = s.tape.len then s.setTape (s.tape.grow s.growthSize) else s

/-- What one transaction on the input port gives the core (43_io.md R93). -/
inductive InReply where
  | byte (b : Byte) (env : Env)
  | closed
  /-- Not answered yet (R94). -/
  | pending
deriving DecidableEq, Repr

/-- `InRead()` (43_io.md R93): the front byte, removed; else `closed` when the host has closed the stream. -/
def Env.inRead (e : Env) : InReply :=
  match e.inp with
  | b :: rest => .byte b { e with inp := rest }
  | [] => if e.inClosed then .closed else .pending

/-- What one transaction on the output port gives the core (43_io.md R92). -/
inductive OutReply where
  | accepted (env : Env)
  | failed (env : Env)
  /-- Not answered yet (R94). -/
  | pending
deriving DecidableEq, Repr

/-- The environment's next answer, and the environment without it. -/
def Env.nextAnswer (e : Env) : Option (OutAnswer × Env) :=
  match e.outAns with
  | a :: rest => some (a, { e with outAns := rest })
  | [] => e.outRest.map fun a => (a, e)

/-- `OutWrite(b)` (43_io.md R92): on `accepted`, `b` is appended to `out`; on `failed`, `out` is unchanged. -/
def Env.outWrite (e : Env) (b : Byte) : OutReply :=
  match e.nextAnswer with
  | some (.accepted, e') => .accepted { e' with out := e'.out ++ [b] }
  | some (.failed, e') => .failed e'
  | none => .pending

/-- A new run's output log is empty; what earlier lifecycles wrote stays with the host (10_state.md R21,
70_reset_and_hazards.md R140; log 16). -/
def Env.archiveOut (e : Env) : Env := { e with outPast := e.outPast ++ e.out, out := [] }

end Sys2Proof.Machine
end

