-- ==== Sys2Proof/Machine/Arithmetic.lean ====
section
/-! DEFINITION. Cell arithmetic: increment, decrement (42_arithmetic.md). -/

namespace Sys2Proof.Machine

/-- increment (42_arithmetic.md R85). -/
def execIncrement (s : State) : Host.Outcome State Fault Refusal :=
  s.withCurrentCell fun v => s.storeCell (cellIncremented v)

/-- decrement (42_arithmetic.md R86). -/
def execDecrement (s : State) : Host.Outcome State Fault Refusal :=
  s.withCurrentCell fun v => s.storeCell (cellDecremented v)

end Sys2Proof.Machine
end

