-- ==== Sys2Proof/Machine/Control.lean ====
section
/-! DEFINITION. Control transfer, the conditional-jump arbiter: jump-if-zero, jump-if-nonzero (44_control.md). -/

namespace Sys2Proof.Machine

/-- jump-if-zero, the opener (44_control.md R95): with a cell that is not 0 "the table is not consulted at all". -/
def execJumpIfZero (s : State) : Host.Outcome State Fault Refusal :=
  s.withCurrentCell fun v =>
    if openerTaken v then
      match s.pairedIndex with
      | some j => .next (s.setPc j).advance
      | none => .next (s.raise (.jumpTargetMissing s.pc))
    else .next s.advance

/-- jump-if-nonzero, the closer (44_control.md R96). The table entry is "always defined" for a program that
loaded; a state without it faults under the model's own name (log 7). -/
def execJumpIfNonzero (s : State) : Host.Outcome State Fault Refusal :=
  s.withCurrentCell fun v =>
    if closerTaken v then
      match s.pairedIndex with
      | some j => .next (s.setPc j).advance
      | none => .fault (.noTableEntry s.pc)
    else .next s.advance

end Sys2Proof.Machine
end

