-- ==== Sys2Proof/Machine/Io.lean ====
section
/-! DEFINITION. Stream instructions: output, input (43_io.md). -/

namespace Sys2Proof.Machine

/-- output (43_io.md R90). -/
def execOutput (s : State) : Host.Outcome State Fault Refusal :=
  s.withCurrentCell fun v =>
    match s.env.outWrite v with
    | .accepted e => .next (s.setEnv e).advance
    | .failed e => .next ((s.setEnv e).raise .outputFailure)
    | .pending => .next s.wait

/-- input (43_io.md R91). -/
def execInput (s : State) : Host.Outcome State Fault Refusal :=
  match s.env.inRead with
  | .byte b e => (s.setEnv e).storeCell b
  | .closed => .next (s.raise .inputExhausted)
  | .pending => .next s.wait

end Sys2Proof.Machine
end

