-- ==== Sys2Proof/Machine/Pointer.lean ====
section
/-! DEFINITION. Cursor movement: move-right, move-left (41_pointer.md). -/

namespace Sys2Proof.Machine

/-- move-right (41_pointer.md R80). -/
def execMoveRight (s : State) : Host.Outcome State Fault Refusal :=
  if s.atTapeCap then .next (s.raise .tapeExhausted)
  else .next ((s.setCur (s.cur + 1)).growIfAtEnd).advance

/-- move-left (41_pointer.md R81): "clamped to a minimum of 0 (no error, no underflow)". -/
def execMoveLeft (s : State) : Host.Outcome State Fault Refusal :=
  .next (if 0 < s.cur then s.setCur (s.cur - 1) else s).advance

end Sys2Proof.Machine
end

