-- ==== Sys2Proof/WellFormed.lean ====
section
/-! DEFINITION. What is well-formed: parameters, instructions, programs. -/

namespace Sys2Proof

/-- The constraints on the parameters: `TAPE_INIT >= 1` (00_scope.md R2), `TAPE_CAP >= TAPE_INIT` (R4). -/
def Config.wf (c : Config) : Bool :=
  decide (1 ≤ c.tapeInit) &&
    match c.tapeCap with
    | none => true
    | some n => decide (c.tapeInit ≤ n)

/-- Every stored tag is legal: "In stored form all eight tag values are legal and no ninth exists"
(30_encoding.md R56). An instruction carries no field that could be ill-formed (R50). -/
def Instr.wf : Instr → Bool
  | .moveRight => true
  | .moveLeft => true
  | .increment => true
  | .decrement => true
  | .output => true
  | .input => true
  | .jumpIfZero => true
  | .jumpIfNonzero => true

/-- The openers still pending after `p`, when `d` are pending before it; `none` at a closer that finds none
pending (30_encoding.md R57 read as counting). -/
def Program.pending : List Instr → Nat → Option Nat
  | [], d => some d
  | .jumpIfZero :: p, d => Program.pending p (d + 1)
  | .jumpIfNonzero :: _, 0 => none
  | .jumpIfNonzero :: p, d + 1 => Program.pending p d
  | .moveRight :: p, d => Program.pending p d
  | .moveLeft :: p, d => Program.pending p d
  | .increment :: p, d => Program.pending p d
  | .decrement :: p, d => Program.pending p d
  | .output :: p, d => Program.pending p d
  | .input :: p, d => Program.pending p d

/-- A program whose every closer has an opener: what the reference loads (30_encoding.md R58, R59). -/
def Program.closersPaired (p : List Instr) : Bool := (Program.pending p 0).isSome

/-- "a program in which every opener and every closer is paired" (00_scope.md section 6, "Well-formed
program"): what a machine with `STRICT_OPENERS` loads (30_encoding.md R60). -/
def Program.wf (p : List Instr) : Bool := Program.pending p 0 == some 0

end Sys2Proof
end

