-- ==== Sys2Proof/Decode.lean ====
section
/-! DEFINITION. The encoding: one byte is one instruction or commentary (30_encoding.md R50, R51, R53, R56).
The byte values are the spec's own, from general knowledge (R51, G1, G2; log 3). -/

namespace Sys2Proof

/-- What one source byte is. -/
inductive Decoded where
  | opcode (i : Instr)
  /-- One of the 248 other values: "dropped with no error and no side effect" (R53, R56). -/
  | commentary
deriving DecidableEq, Repr

/-- Why no instruction starts a byte sequence. -/
inductive DecodeReject where
  /-- There is no byte. -/
  | noByte
  /-- The byte is commentary and never enters the program store (R56). -/
  | commentaryByte (b : Byte)
deriving DecidableEq, Repr

/-- The chain of tests of `Filter` (30_encoding.md R53), on the values of R51: "Each byte is judged alone, by
equality of the whole byte with one of the eight values". -/
def decodeByte (b : Byte) : Decoded :=
  if b = 0x3E#8 then .opcode .moveRight
  else if b = 0x3C#8 then .opcode .moveLeft
  else if b = 0x2B#8 then .opcode .increment
  else if b = 0x2D#8 then .opcode .decrement
  else if b = 0x2E#8 then .opcode .output
  else if b = 0x2C#8 then .opcode .input
  else if b = 0x5B#8 then .opcode .jumpIfZero
  else if b = 0x5D#8 then .opcode .jumpIfNonzero
  else .commentary

/-- The instruction that starts a byte sequence, and the bytes after it. Every instruction is one byte
(R50, R63). Commentary is rejected by name here; the Loader/Filter skips it. -/
def decode : List Byte → Except DecodeReject (Instr × List Byte)
  | [] => .error .noByte
  | b :: rest =>
    match decodeByte b with
    | .opcode i => .ok (i, rest)
    | .commentary => .error (.commentaryByte b)

/-- The byte of R51 for each opcode, which is also its tag's numeric identity (R52). -/
def encodeByte : Instr → Byte
  | .moveRight => 0x3E#8
  | .moveLeft => 0x3C#8
  | .increment => 0x2B#8
  | .decrement => 0x2D#8
  | .output => 0x2E#8
  | .input => 0x2C#8
  | .jumpIfZero => 0x5B#8
  | .jumpIfNonzero => 0x5D#8

/-- The words of an instruction. -/
def encode (i : Instr) : List Byte := [encodeByte i]

/-- A program text without commentary. -/
def encodeProgram (p : List Instr) : List Byte := p.map encodeByte

/-- The low `nbits` bits of `w` as bytes, the first byte from bits 7..0, at least the one byte an instruction
has (the bits the table leaves out are 0). -/
def tableWordBytes (nbits w : Nat) : List Byte :=
  (List.range (max 1 ((nbits + 7) / 8))).map fun k => BitVec.ofNat 8 ((w % 2 ^ nbits) / 2 ^ (8 * k))

/-- The instruction the decoder reads from a word of spec/opcode_table.json. -/
def decodeTableWord (nbits w : Nat) : Option Instr :=
  match decode (tableWordBytes nbits w) with
  | .ok (i, _) => some i
  | .error _ => none

end Sys2Proof
end

