-- ==== Sys2Proof/Machine/Load.lean ====
section
/-! DEFINITION. Reset and the load phase: Loader/Filter, Jump Table Builder, run start (30_encoding.md R53 to R61,
70_reset_and_hazards.md R130, R131). The two builders as whole functions first, then the same work one iteration
a step. -/

namespace Sys2Proof.Machine

/-- `prog` already holds `PROG_CAP` opcodes (30_encoding.md R55). -/
def progFull (cap : Option Nat) (n : Nat) : Bool :=
  match cap with
  | none => false
  | some c => decide (c ≤ n)

/-- One iteration of `Filter` on the byte `b` (30_encoding.md R53, R55). -/
def filterByte (cap : Option Nat) (prog : List Instr) (b : Byte) : Except Cause (List Instr) :=
  match decodeByte b with
  | .commentary => .ok prog
  | .opcode i => if progFull cap prog.length then .error .programStoreExhausted else .ok (prog ++ [i])

/-- `Filter` from the program built so far. -/
def filterFrom (cap : Option Nat) (prog : List Instr) : List Byte → Except Cause (List Instr)
  | [] => .ok prog
  | b :: rest =>
    match filterByte cap prog b with
    | .ok prog' => filterFrom cap prog' rest
    | .error c => .error c

/-- `Filter(src)` (30_encoding.md R53). -/
def filterSource (cap : Option Nat) (src : List Byte) : Except Cause (List Instr) := filterFrom cap [] src

/-- The Jump Table Builder's data: the table and the stack of pending openers, top first. -/
structure Builder where
  jt : JumpTable
  bstk : List Nat
deriving DecidableEq, Repr

/-- One iteration of `BuildJt` on the opcode at index `i` (30_encoding.md R57, R58). -/
def scanOpcode (i : Nat) (op : Instr) (b : Builder) : Except Cause Builder :=
  match op with
  | .jumpIfZero => .ok { b with bstk := i :: b.bstk }
  | .jumpIfNonzero =>
    match b.bstk with
    | [] => .error (.unbalancedBracket i)
    | j :: rest => .ok { jt := b.jt.pair j i, bstk := rest }
  | .moveRight => .ok b
  | .moveLeft => .ok b
  | .increment => .ok b
  | .decrement => .ok b
  | .output => .ok b
  | .input => .ok b

/-- The scan from index `i` on. -/
def scanFrom (i : Nat) (b : Builder) : List Instr → Except Cause Builder
  | [] => .ok b
  | op :: rest =>
    match scanOpcode i op b with
    | .ok b' => scanFrom (i + 1) b' rest
    | .error c => .error c

/-- The end of `BuildJt`: pending openers are discarded (30_encoding.md R59), or rejected when
`STRICT_OPENERS` is true (R60). -/
def finishScan (strict : Bool) (b : Builder) : Except Cause JumpTable :=
  match b.bstk, strict with
  | top :: _, true => .error (.unbalancedBracket top)
  | _ :: _, false => .ok b.jt
  | [], _ => .ok b.jt

/-- `BuildJt(prog)` (30_encoding.md R57). -/
def buildTable (strict : Bool) (prog : List Instr) : Except Cause JumpTable :=
  match scanFrom 0 { jt := [], bstk := [] } prog with
  | .ok b => finishScan strict b
  | .error c => .error c

/-- The load phase as a whole: steps 2 and 3 of 70_reset_and_hazards.md R131. -/
def loadProgram (cfg : Config) (src : List Byte) : Except Cause (List Instr × JumpTable) :=
  match filterSource cfg.progCap src with
  | .error c => .error c
  | .ok prog =>
    match buildTable cfg.strictOpeners prog with
    | .error c => .error c
    | .ok jt => .ok (prog, jt)

/-- Run start: step 5 of 70_reset_and_hazards.md R131; the builder's stack is discarded (10_state.md R22). -/
def State.runStart (s : State) : State :=
  { s with bstk := [], tape := Memory.zeros s.cfg.tapeInit, pc := 0, cur := 0, phase := .running,
           env := s.env.archiveOut }

/-- The Jump Table Builder begins with an empty table and an empty stack (30_encoding.md R57). -/
def State.beginScan (s : State) : State :=
  { s with jt := [], bstk := [], phase := .loading (.build 0) }

/-- One step of the Loader/Filter at source offset `k`. A failed load leaves its partial stores unread (log 20). -/
def State.filterStep (s : State) (k : Nat) : State :=
  match s.src[k]? with
  | none => s.beginScan
  | some b =>
    match filterByte s.cfg.progCap s.prog b with
    | .ok prog => { s with prog := prog, phase := .loading (.filter (k + 1)) }
    | .error c => s.raise c

/-- One step of the Jump Table Builder at index `i`. "no partial table is usable" after a failure (R58; log 20). -/
def State.buildStep (s : State) (i : Nat) : State :=
  match s.prog[i]? with
  | none =>
    match finishScan s.cfg.strictOpeners { jt := s.jt, bstk := s.bstk } with
    | .ok _ => s.runStart
    | .error c => s.raise c
  | some op =>
    match scanOpcode i op { jt := s.jt, bstk := s.bstk } with
    | .ok b => { s with jt := b.jt, bstk := b.bstk, phase := .loading (.build (i + 1)) }
    | .error c => s.raise c

/-- One step of the load phase (log 10). It makes no port transaction (70_reset_and_hazards.md R131). -/
def State.loadStep (s : State) : LoadStage → State
  | .filter k => s.filterStep k
  | .build i => s.buildStep i

/-- Reset (70_reset_and_hazards.md R130): a new lifecycle with the request's parameters and source; everything of
an earlier lifecycle is discarded, the streams are not touched (the bytes already accepted are kept: log 16). -/
def State.doReset (s : State) (r : ResetRequest) : State :=
  { cfg := r.cfg, src := r.src, bstk := [], prog := [], jt := [], tape := Memory.absent, pc := 0, cur := 0,
    phase := .loading (.filter 0), env := { s.env.archiveOut with rst := none } }

end Sys2Proof.Machine
end

