-- ==== Sys2Proof/Machine/Place.lean ====
section
/-! DEFINITION. Placing one instruction where the engine fetches next, for the host's checks (log 19). -/

namespace Sys2Proof.Machine

/-- The smallest loaded program that holds the instruction together with its implicit operand (a bracket's pair,
30_encoding.md R62), and the index of the instruction in it. -/
def placedProgram : Instr → List Instr × Nat
  | .moveRight => ([.moveRight], 0)
  | .moveLeft => ([.moveLeft], 0)
  | .increment => ([.increment], 0)
  | .decrement => ([.decrement], 0)
  | .output => ([.output], 0)
  | .input => ([.input], 0)
  | .jumpIfZero => ([.jumpIfZero, .jumpIfNonzero], 0)
  | .jumpIfNonzero => ([.jumpIfZero, .jumpIfNonzero], 1)

/-- A state in which the engine runs: a run in progress is kept, otherwise a run starts (R131 step 5); a pending
reset is taken away. -/
def State.madeRunning (s : State) : State :=
  let t := match s.phase with
    | .running => s
    | .loading _ => s.runStart
    | .halted => s.runStart
    | .failed _ => s.runStart
  { t with env := { t.env with rst := none } }

/-- Stands for a load from outside the machine: `p` and its jump table in the stores, `pc` at index `k`. -/
def State.withLoaded (s : State) (p : List Instr) (k : Nat) : State :=
  { s.madeRunning with prog := p, jt := (buildTable false p).toOption.getD [], pc := k }

/-- The instruction a table word decodes to, placed so that the next step runs it; a commentary byte is dropped
by the Loader/Filter and leaves an empty program (30_encoding.md R56). -/
def State.placeWord (s : State) (nbits w : Nat) : State :=
  match decodeTableWord nbits w with
  | some i => s.withLoaded (placedProgram i).1 (placedProgram i).2
  | none => s.withLoaded [] 0

end Sys2Proof.Machine
end

