-- ==== Sys2Proof/Machine/Step.lean ====
section
/-! DEFINITION. One step of the machine (40_execution_cycle.md R70, R71; 70_reset_and_hazards.md R130, R131). -/

namespace Sys2Proof.Machine

/-- The engine's step: the halt test, then fetch and dispatch (40_execution_cycle.md R70, R71). -/
def engineStep (s : State) : Host.Outcome State Fault Refusal :=
  match s.fetch with
  | some i => exec i s
  | none => .next s.halt

/-- One step. A pending reset is served before anything else, in any phase (70_reset_and_hazards.md R140; log 17).
In a terminal phase the engine has no step: the state is left as it is (40_execution_cycle.md R70; log 11). -/
def step (s : State) : Host.Outcome State Fault Refusal :=
  match s.env.rst with
  | some r => .next (s.doReset r)
  | none =>
    match s.phase with
    | .loading stage => .next (s.loadStep stage)
    | .running => engineStep s
    | .halted => .next s
    | .failed _ => .next s

/-- The state in which the next step runs the instruction of a table word (log 19). -/
def State.withFetchWord (s : State) (nbits w : Nat) : State := s.placeWord nbits w

end Sys2Proof.Machine
end

