-- ==== Sys2Proof/Machine/HostPort.lean ====
section
/-! DEFINITION. The host's side of the five ports (70_reset_and_hazards.md R134, R135): what it reads on STATUS and
what it may do between two steps. -/

namespace Sys2Proof.Machine

/-- The numeric cause codes (60_exceptions.md R100). -/
def Cause.code : Cause → Nat
  | .unbalancedBracket _ => 1
  | .inputExhausted => 2
  | .outputFailure => 3
  | .jumpTargetMissing _ => 4
  | .tapeExhausted => 5
  | .programStoreExhausted => 6

/-- The info recorded beside a cause (60_exceptions.md R100). -/
def Cause.info : Cause → Option Nat
  | .unbalancedBracket i => some i
  | .inputExhausted => none
  | .outputFailure => none
  | .jumpTargetMissing i => some i
  | .tapeExhausted => none
  | .programStoreExhausted => none

/-- What the STATUS port carries (70_reset_and_hazards.md R134): `phase`, and when Failed the code and the info. -/
inductive Status where
  | loading
  | running
  | halted
  | failed (code : Nat) (info : Option Nat)
deriving DecidableEq, Repr

/-- The STATUS port, "level, readable at any time" (R134). -/
def State.status (s : State) : Status :=
  match s.phase with
  | .loading _ => .loading
  | .running => .running
  | .halted => .halted
  | .failed c => .failed c.code c.info

/-- What the host may do (R135). The first three settle answers it will give to later transactions (log 21). -/
inductive HostMove where
  | supplyInput (bytes : List Byte)
  | closeInput
  | settleAnswers (answers : List OutAnswer)
  | reset (r : ResetRequest)
deriving DecidableEq, Repr

/-- A host move lands between two steps. "after closed, never deliver again" (R135): closed input takes no more bytes. -/
def State.hostMove (s : State) : HostMove → State
  | .supplyInput bytes => if s.env.inClosed then s else s.setEnv { s.env with inp := s.env.inp ++ bytes }
  | .closeInput => s.setEnv { s.env with inClosed := true }
  | .settleAnswers answers => s.setEnv { s.env with outAns := s.env.outAns ++ answers }
  | .reset r => s.setEnv { s.env with rst := some r }

end Sys2Proof.Machine
end

