-- ==== Sys2Proof/Safety.lean ====
section
/-! DEFINITION. What counts as a result and as a good state, in the terms claims use. -/

namespace Sys2Proof.Machine

/-- What a lifecycle shows at its end (70_reset_and_hazards.md R133): `out` and the status. Of a failed run nothing
else may be read (60_exceptions.md R107), so a claim about the end of a run is a claim about this. -/
structure Result where
  out : List Byte
  status : Status
deriving DecidableEq, Repr

/-- The observable result of an ended lifecycle; `none` while it has not ended (R133 case c). -/
def State.result (s : State) : Option Result :=
  match s.phase with
  | .loading _ => none
  | .running => none
  | .halted => some { out := s.env.out, status := s.status }
  | .failed _ => some { out := s.env.out, status := s.status }

/-- "the run ends with property P": only a halt satisfies it, a failure refutes it (60_exceptions.md R107). -/
def State.EndedWith (P : State → Prop) (s : State) : Prop := s.phase = .halted ∧ P s

/-- What a claim may compare of two states: everything, but of a failed state not the tape, `cur` and `pc`, which are
"**unspecified** after a failure: a model must not let any claim read them" (60_exceptions.md R107 d; log 9). -/
structure State.SameForClaims (s t : State) : Prop where
  cfg : s.cfg = t.cfg
  src : s.src = t.src
  bstk : s.bstk = t.bstk
  prog : s.prog = t.prog
  jt : s.jt = t.jt
  phase : s.phase = t.phase
  env : s.env = t.env
  run : (∀ c, t.phase ≠ .failed c) → s.tape = t.tape ∧ s.cur = t.cur ∧ s.pc = t.pc

/-- The instructions of a list one after another, without fetching (for laws about sequences). -/
def execSeq : List Instr → State → Host.Outcome State Fault Refusal
  | [], s => .next s
  | i :: rest, s =>
    match exec i s with
    | .next t => execSeq rest t
    | .fault r => .fault r
    | .refused r => .refused r

/-- `n` steps, stopping where a step stops. -/
def runSteps : Nat → State → Host.Outcome State Fault Refusal
  | 0, s => .next s
  | n + 1, s =>
    match step s with
    | .next t => runSteps n t
    | .fault r => .fault r
    | .refused r => .refused r

/-- The opcode a byte selects, if it selects one. -/
def opcodeOf (b : Byte) : Option Instr :=
  match decodeByte b with
  | .opcode i => some i
  | .commentary => none

/-- A program text: each instruction after some bytes of commentary, and commentary at the end. -/
def commentedText (l : List (List Byte × Instr)) (tail : List Byte) : List Byte :=
  (l.flatMap fun e => e.1 ++ [encodeByte e.2]) ++ tail

/-- The instructions at indices `i .. j`. -/
def between (p : List Instr) (i j : Nat) : List Instr := (p.drop i).take (j + 1 - i)

/-- As many openers as closers among `p[i .. j]` (30_encoding.md R61 item 7). -/
def evenBetween (p : List Instr) (i j : Nat) : Prop :=
  (between p i j).count .jumpIfZero = (between p i j).count .jumpIfNonzero

/-- The jump table of the first `n` instructions of `p`: the properties of 30_encoding.md R61 items 1, 2, 3, 5, 6,
and that no pair spans an unpaired opener (44_control.md R99). -/
structure TableInv (p : List Instr) (n : Nat) (jt : JumpTable) : Prop where
  canonical : keysRising jt = true
  inRange : ∀ i j, jt.lookup i = some j → i < n ∧ j < n
  symm : ∀ i j, jt.lookup i = some j → jt.lookup j = some i
  directed : ∀ i j, jt.lookup i = some j →
    (p[i]? = some .jumpIfZero ∧ p[j]? = some .jumpIfNonzero ∧ i < j) ∨
    (p[i]? = some .jumpIfNonzero ∧ p[j]? = some .jumpIfZero ∧ j < i)
  closers : ∀ i, i < n → p[i]? = some .jumpIfNonzero → ∃ j, jt.lookup i = some j
  nested : ∀ i j i' j', jt.lookup i = some j → jt.lookup i' = some j' → i < j → i' < j' → i < i' →
    j < i' ∨ j' < j
  unspanned : ∀ k, k < n → p[k]? = some .jumpIfZero → jt.lookup k = none →
    ∀ i j, jt.lookup i = some j → i < j → ¬ (i < k ∧ k < j)

/-- The builder part-way, before index `n`: the stack holds exactly the pending openers, top first. -/
structure BuilderInv (p : List Instr) (n : Nat) (jt : JumpTable) (bstk : List Nat) : Prop where
  table : TableInv p n jt
  falling : bstk.Pairwise (· > ·)
  pending : ∀ k, k ∈ bstk ↔ k < n ∧ p[k]? = some .jumpIfZero ∧ jt.lookup k = none

/-- A run in progress: the current cell exists (10_state.md R18), `pc <= plen` (R15), the builder's stack is gone
(R22), the table is whole (30_encoding.md R61), the tape fits and has whole blocks (10_state.md R18). -/
structure RunInv (s : State) : Prop where
  cell : s.cur < s.tape.len
  pcInRange : s.pc ≤ s.prog.length
  noStack : s.bstk = []
  table : TableInv s.prog s.prog.length s.jt
  strict : s.cfg.strictOpeners = true → ∀ i, s.prog[i]? = some .jumpIfZero → ∃ j, s.jt.lookup i = some j
  fits : ∀ c, s.cfg.tapeCap = some c → s.tape.len ≤ c
  blocks : (∀ c, s.cfg.tapeCap = some c → s.cfg.tapeInit ∣ c) → s.cfg.tapeInit ∣ s.tape.len

/-- What each phase guarantees. Of a failed state nothing is claimed (60_exceptions.md R107). -/
def State.PhaseInv (s : State) : Prop :=
  match s.phase with
  | .loading (.filter _) => True
  | .loading (.build i) => i ≤ s.prog.length ∧ BuilderInv s.prog i s.jt s.bstk
  | .running => RunInv s
  | .halted => RunInv s ∧ s.pc = s.prog.length
  | .failed _ => True

/-- The invariant every step keeps: legal parameters (also of a pending reset), the tape's canonical form
(not of a failed state: R107), the program within `PROG_CAP`, and what the phase guarantees. -/
structure State.Inv (s : State) : Prop where
  cfgOk : s.cfg.wf = true
  rstOk : ∀ r, s.env.rst = some r → r.cfg.wf = true
  tapeOk : (∀ c, s.phase ≠ .failed c) → s.tape.wf = true
  progFits : ∀ c, s.cfg.progCap = some c → s.prog.length ≤ c
  phaseOk : s.PhaseInv

/-- The same state with another tape length and another block size, over the same non-zero cells (10_state.md R28). -/
def State.withTapeShape (s : State) (len block : Nat) : State :=
  { s with tape := { s.tape with len := len }, cfg := { s.cfg with tapeInit := block } }

end Sys2Proof.Machine
end

