-- ==== Sys2Proof/Certificates/Slice0/Obligations.lean ====
section
/-! DEFINITION. The statements for the provers. Each docstring names the rule of spec/ it formalises; where it rests
on a choice of the model it names the log entry. No statement reads the tape, `cur` or `pc` of a failed state
(60_exceptions.md R107 d): where a state may be Failed, whole states are compared by `State.SameForClaims`, which
leaves those three out, and a statement about an instruction starts from Running, the only phase in which the engine
has a step (40_execution_cycle.md R70). -/

open Sys2Proof Sys2Proof.Machine

/-! ### Encoding and load -/

/-- The eight byte values, read by the decoder and by the table's numbering (30_encoding.md section 1.2). The values
are general knowledge in the spec itself (G1, G2; log 3). -/
def Obligations.OpcodeBytesDecode : Prop :=
  decodeByte 0x3E#8 = .opcode .moveRight ∧ decodeByte 0x3C#8 = .opcode .moveLeft ∧
  decodeByte 0x2B#8 = .opcode .increment ∧ decodeByte 0x2D#8 = .opcode .decrement ∧
  decodeByte 0x2E#8 = .opcode .output ∧ decodeByte 0x2C#8 = .opcode .input ∧
  decodeByte 0x5B#8 = .opcode .jumpIfZero ∧ decodeByte 0x5D#8 = .opcode .jumpIfNonzero ∧
  decodeTableWord 8 0x3E = some .moveRight ∧ decodeTableWord 8 0x5D = some .jumpIfNonzero

/-- A byte that encodes none of the eight is commentary: the filter drops it with no error and no effect on the
program, whatever the capacity (30_encoding.md section 3). Which bytes those are rests on log 3. -/
def Obligations.CommentaryBytesAreDropped : Prop :=
  ∀ b : Byte, (∀ i, encodeByte i ≠ b) →
    decodeByte b = .commentary ∧ ∀ cap prog, filterByte cap prog b = .ok prog

/-- Every instruction is one byte, and decoding it gives it back with the bytes that follow (30_encoding.md R50). -/
def Obligations.EncodedInstructionDecodesToItself : Prop :=
  ∀ (i : Instr) (rest : List Byte), (encode i).length = 1 ∧ decode (encode i ++ rest) = .ok (i, rest)

/-- Decode and encode agree on whole programs: any program, written with any commentary anywhere, is loaded as that
program (30_encoding.md sections 2 and 5). -/
def Obligations.CommentedProgramTextLoadsAsTheProgram : Prop :=
  ∀ (l : List (List Byte × Instr)) (tail : List Byte),
    (∀ e ∈ l, ∀ b ∈ e.1, decodeByte b = .commentary) → (∀ b ∈ tail, decodeByte b = .commentary) →
    filterSource none (commentedText l tail) = .ok (l.map Prod.snd)

/-- The filter keeps exactly the opcodes, in order, and with an unbounded store cannot fail (30_encoding.md
section 2). -/
def Obligations.FilterKeepsExactlyTheOpcodesInOrder : Prop :=
  ∀ src : List Byte, filterSource none src = .ok (src.filterMap opcodeOf)

/-- A finite program store: the load fails at the first opcode that does not fit, and only then; the step that
meets it ends the load, and no step after it executes anything (30_encoding.md R55). That one iteration of the filter
is one step is log 10, that a failed machine still answers steps log 11. -/
def Obligations.FullProgramStoreFailsTheLoad : Prop :=
  (∀ (c : Nat) (src : List Byte), filterSource (some c) src =
    if (src.filterMap opcodeOf).length ≤ c then .ok (src.filterMap opcodeOf) else .error .programStoreExhausted) ∧
  (∀ (s : State) (k c : Nat) (b : Byte) (i : Instr), s.env.rst = none → s.phase = .loading (.filter k) →
    s.src[k]? = some b → decodeByte b = .opcode i → s.cfg.progCap = some c → c ≤ s.prog.length →
    ∃ t, step s = .next t ∧ t.phase = .failed .programStoreExhausted ∧ t.env = s.env ∧
      ∀ n, ∃ u, runSteps n t = .next u ∧ u.phase = t.phase ∧ u.env = s.env) ∧
  (∀ src, filterSource none src ≠ .error .programStoreExhausted)

/-- The loader stores the opcode a source byte decodes to at the next index, and passes over commentary (one
iteration of 30_encoding.md R53; that an iteration is a step is log 10). -/
def Obligations.LoaderStoresTheDecodedOpcode : Prop :=
  ∀ (s : State) (k : Nat) (b : Byte), s.env.rst = none → s.phase = .loading (.filter k) → s.src[k]? = some b →
    (∀ i, decodeByte b = .opcode i → (∀ c, s.cfg.progCap = some c → s.prog.length < c) →
      step s = .next { s with prog := s.prog ++ [i], phase := .loading (.filter (k + 1)) }) ∧
    (decodeByte b = .commentary → step s = .next { s with phase := .loading (.filter (k + 1)) })

/-- The first closer that finds no opener pending fails the build with its own index, and in the machine no
instruction executes and nothing is written (30_encoding.md R58). That one iteration of the scan is one step is log 10,
that a failed machine still answers steps log 11. -/
def Obligations.FirstUnbalancedCloserFailsTheLoad : Prop :=
  (∀ (strict : Bool) (p : List Instr) (i : Nat), p[i]? = some .jumpIfNonzero →
    Program.pending (p.take i) 0 = some 0 → buildTable strict p = .error (.unbalancedBracket i)) ∧
  (∀ (s : State) (i : Nat), s.env.rst = none → s.phase = .loading (.build i) → s.prog[i]? = some .jumpIfNonzero →
    s.bstk = [] → ∃ t, step s = .next t ∧ t.phase = .failed (.unbalancedBracket i) ∧ t.env = s.env ∧
      ∀ n, ∃ u, runSteps n t = .next u ∧ u.phase = t.phase ∧ u.env = s.env)

/-- With `STRICT_OPENERS = false` the build succeeds exactly when every closer has an opener; openers still pending
do not matter, and have no entry (30_encoding.md R59). -/
def Obligations.PendingOpenersAreAcceptedWithoutEntry : Prop :=
  ∀ p : List Instr, ((∃ jt, buildTable false p = .ok jt) ↔ Program.closersPaired p = true) ∧
    ∀ b, scanFrom 0 { jt := [], bstk := [] } p = .ok b →
      buildTable false p = .ok b.jt ∧ ∀ k ∈ b.bstk, p[k]? = some .jumpIfZero ∧ b.jt.lookup k = none

/-- With `STRICT_OPENERS = true` a program that ends its scan with openers pending is rejected with the index of the
last opener that has no partner; any other program is built as without the parameter (30_encoding.md R60). -/
def Obligations.StrictBuildRejectsTheLastPendingOpener : Prop :=
  (∀ (p : List Instr) (d : Nat), Program.pending p 0 = some (d + 1) →
    ∃ t jt, buildTable true p = .error (.unbalancedBracket t) ∧ buildTable false p = .ok jt ∧
      p[t]? = some .jumpIfZero ∧ jt.lookup t = none ∧
      ∀ k, t < k → p[k]? = some .jumpIfZero → ∃ j, jt.lookup k = some j) ∧
  (∀ p : List Instr, Program.pending p 0 = some 0 ∨ Program.pending p 0 = none →
    buildTable true p = buildTable false p)

/-- In a well-formed program every opener has its entry, under either setting (30_encoding.md section 4, item 4). -/
def Obligations.WellFormedProgramPairsEveryOpener : Prop :=
  ∀ (strict : Bool) (p : List Instr), Program.wf p = true →
    ∃ jt, buildTable strict p = .ok jt ∧ ∀ i, p[i]? = some .jumpIfZero → ∃ j, jt.lookup i = some j

/-- The table of a built program is symmetric, holds bracket indices only, points from opener forward to closer and
back, and has every closer (30_encoding.md section 4, properties 1, 2, 3 and 5). -/
def Obligations.BuiltTableIsSymmetricAndDirected : Prop :=
  ∀ (strict : Bool) (p : List Instr) (jt : JumpTable), buildTable strict p = .ok jt →
    (∀ i j, jt.lookup i = some j → jt.lookup j = some i ∧ i < p.length ∧ j < p.length ∧
      ((p[i]? = some .jumpIfZero ∧ p[j]? = some .jumpIfNonzero ∧ i < j) ∨
       (p[i]? = some .jumpIfNonzero ∧ p[j]? = some .jumpIfZero ∧ j < i))) ∧
    (∀ i, p[i]? = some .jumpIfNonzero → ∃ j, jt.lookup i = some j) ∧
    (strict = true → ∀ i, p[i]? = some .jumpIfZero → ∃ j, jt.lookup i = some j)

/-- Pairs never cross, and none spans an unpaired opener (30_encoding.md section 4, property 6; 44_control.md
section on unpaired openers). -/
def Obligations.BuiltTablePairsNest : Prop :=
  ∀ (strict : Bool) (p : List Instr) (jt : JumpTable), buildTable strict p = .ok jt →
    (∀ i j i' j', jt.lookup i = some j → jt.lookup i' = some j' → i < j → i' < j' → i < i' → j < i' ∨ j' < j) ∧
    (∀ k, p[k]? = some .jumpIfZero → jt.lookup k = none → ∀ i j, jt.lookup i = some j → i < j → ¬ (i < k ∧ k < j))

/-- The closed form of the table: an opener is paired with the least later index up to which openers and closers are
equally many, and has an entry exactly when there is one (30_encoding.md section 4, properties 4 and 7). -/
def Obligations.BuiltTableClosedForm : Prop :=
  ∀ (strict : Bool) (p : List Instr) (jt : JumpTable), buildTable strict p = .ok jt →
    ∀ i, p[i]? = some .jumpIfZero → ∀ j, jt.lookup i = some j ↔
      (i < j ∧ j < p.length ∧ evenBetween p i j ∧ ∀ k, i < k → k < j → ¬ evenBetween p i k)

/-- The load phase, step by step, does what the Loader/Filter and the Jump Table Builder do as whole functions: it
reaches run start with their program and table, or fails with their cause, showing Loading until then and touching
no stream (70_reset_and_hazards.md section 1, the boot sequence; the number of steps is log 10). -/
def Obligations.LoadPhaseRefinesTheBuilders : Prop :=
  ∀ s : State, s.env.rst = none → s.phase = .loading (.filter 0) → s.prog = [] →
    (∀ p jt, loadProgram s.cfg s.src = .ok (p, jt) →
      runSteps (s.src.length + 1 + p.length + 1) s = .next { s with
        prog := p, jt := jt, bstk := [], tape := Memory.zeros s.cfg.tapeInit, pc := 0, cur := 0,
        phase := .running, env := { s.env with outPast := s.env.outPast ++ s.env.out, out := [] } } ∧
      ∀ n, n < s.src.length + 1 + p.length + 1 → ∃ t, runSteps n s = .next t ∧ t.status = .loading ∧ t.env = s.env) ∧
    (∀ c, loadProgram s.cfg s.src = .error c → ∃ n t, runSteps n s = .next t ∧ t.phase = .failed c ∧
      t.env = s.env ∧ ∀ m, m < n → ∃ u, runSteps m s = .next u ∧ u.status = .loading)

/-! ### Reset, boot, halt -/

/-- What reset leaves (10_state.md section 4): Loading, `pc` and `cur` 0, nothing loaded, no cell, this hardware's
parameters. The environment's values are log 15. -/
def Obligations.ResetStateValues : Prop :=
  State.reset.phase = .loading (.filter 0) ∧ State.reset.pc = 0 ∧ State.reset.cur = 0 ∧ State.reset.prog = [] ∧
  State.reset.jt = [] ∧ State.reset.bstk = [] ∧ (∀ a, State.reset.tape.read a = none) ∧
  State.reset.cfg = { tapeInit := 10, tapeCap := none, progCap := none, strictOpeners := false }

/-- A reset in any phase: a new lifecycle begins with the request's parameters and source, everything of the earlier
one inside the core is discarded, the input is not rewound and no accepted byte is lost (70_reset_and_hazards.md
section 1). That the request is data served before the next step is log 17, the split of the output log log 16; the
values of `pc`, `cur` and the tape before run start, where the spec has not created them yet, are log 18. -/
def Obligations.ResetBeginsANewLifecycle : Prop :=
  ∀ (s : State) (r : ResetRequest), s.env.rst = some r → ∃ t, step s = .next t ∧
    t.phase = .loading (.filter 0) ∧ t.cfg = r.cfg ∧ t.src = r.src ∧ t.prog = [] ∧ t.jt = [] ∧ t.bstk = [] ∧
    t.pc = 0 ∧ t.cur = 0 ∧ (∀ a, t.tape.read a = none) ∧
    t.env = { s.env with rst := none, outPast := s.env.outPast ++ s.env.out, out := [] }

/-- Run start: at the end of a successful scan the tape is `TAPE_INIT` zero cells, `pc` and `cur` are 0 and the run's
output is empty (70_reset_and_hazards.md R131; 10_state.md R13, R14, R16, R21, R22). That run start is the one step
after the last scanned opcode is log 10. -/
def Obligations.RunStartsOnAFreshTape : Prop :=
  ∀ (s : State), s.env.rst = none → s.phase = .loading (.build s.prog.length) →
    (s.bstk = [] ∨ s.cfg.strictOpeners = false) → ∃ t, step s = .next t ∧ t.phase = .running ∧
      t.tape.len = s.cfg.tapeInit ∧ (∀ a, a < s.cfg.tapeInit → t.tape.read a = some 0#8) ∧
      t.pc = 0 ∧ t.cur = 0 ∧ t.env.out = [] ∧ t.bstk = [] ∧ t.prog = s.prog ∧ t.jt = s.jt ∧ t.cfg = s.cfg

/-- A step of the running engine is exactly the instruction that stands at `pc` (40_execution_cycle.md section 1); no
pc movement or other work is added around it. -/
def Obligations.StepRunsTheFetchedInstruction : Prop :=
  ∀ (s : State) (i : Instr), s.env.rst = none → s.phase = .running → s.prog[s.pc]? = some i → step s = exec i s

/-- The word of any table row, placed in any state, is what the next step runs (the model's own placement, log 19). -/
def Obligations.PlacedWordIsRunByTheNextStep : Prop :=
  ∀ (s : State) (w : Nat) (i : Instr), decodeTableWord 8 w = some i →
    step (s.withFetchWord 8 w) = exec i (s.withFetchWord 8 w)

/-- The run ends successfully exactly when a fetch test finds `pc >= plen`; the machine then sets `phase`, changes
nothing else, and stays so (40_execution_cycle.md section 1, halt; that a step in a terminal phase leaves the state as
it is is log 11). -/
def Obligations.HaltsExactlyAtProgramEnd : Prop :=
  ∀ s : State, s.env.rst = none → s.phase = .running →
    ((∃ t, step s = .next t ∧ t.phase = .halted) ↔ s.prog.length ≤ s.pc) ∧
    (s.prog.length ≤ s.pc → ∀ n, runSteps (n + 1) s = .next { s with phase := .halted })

/-- A terminal phase is left by nothing but reset (10_state.md R19); that a step then leaves the state as it is is
log 11. Of a failed state the tape, `cur` and `pc` are left out (60_exceptions.md R107). -/
def Obligations.TerminalPhaseWaitsForReset : Prop :=
  ∀ s : State, s.env.rst = none → ∀ n,
    (s.phase = .halted → runSteps n s = .next s) ∧
    (∀ c, s.phase = .failed c → ∃ t, runSteps n s = .next t ∧ t.SameForClaims s)

/-- A step that fails records its cause and touches no stream but for the answer it was given: `out` and `inp` are
exactly what the completed instructions left, and a failed state is never the end a claim asks for
(60_exceptions.md R107 a to c and its last sentence of d, 10_state.md R21). -/
def Obligations.FailureKeepsTheStreams : Prop :=
  ∀ (s t : State) (c : Cause), s.env.rst = none → s.phase = .running → step s = .next t → t.phase = .failed c →
    t.env.out = s.env.out ∧ t.env.outPast = s.env.outPast ∧ t.env.inp = s.env.inp ∧
    t.env.inClosed = s.env.inClosed ∧ t.status = .failed c.code c.info ∧
    t.result = some { out := s.env.out, status := .failed c.code c.info } ∧ ∀ P, ¬ t.EndedWith P

/-- The tape, `cur` and `pc` of a failed state are never read again: whatever they hold, every later step answers the
same, a reset and the next lifecycle included, and the host sees the same (60_exceptions.md R107 d,
70_reset_and_hazards.md R130, R133). -/
def Obligations.FailedRunIsNeverRead : Prop :=
  ∀ (s : State) (c : Cause) (m : Memory) (cur pc : Nat), s.phase = .failed c → ∀ n,
    (∀ t, runSteps n s = .next t → ∃ u, runSteps n { s with tape := m, cur := cur, pc := pc } = .next u ∧
      u.SameForClaims t ∧ u.status = t.status ∧ u.result = t.result) ∧
    (∀ r, runSteps n s = .fault r → runSteps n { s with tape := m, cur := cur, pc := pc } = .fault r)

/-- The status register moves only along the spec's transitions (10_state.md section 1, the table of `phase`). -/
def Obligations.PhaseMovesOnlyForward : Prop :=
  ∀ s t : State, s.env.rst = none → step s = .next t →
    ((∃ st, s.phase = .loading st) → (∃ st, t.phase = .loading st) ∨ t.phase = .running ∨
      (∃ i, t.phase = .failed (.unbalancedBracket i)) ∨ t.phase = .failed .programStoreExhausted) ∧
    (s.phase = .running → t.phase = .running ∨ t.phase = .halted ∨
      ∃ c, t.phase = .failed c ∧ (∀ i, c ≠ .unbalancedBracket i) ∧ c ≠ .programStoreExhausted) ∧
    (s.phase = .halted → t.phase = .halted) ∧ (∀ c, s.phase = .failed c → t.phase = .failed c)

/-! ### The eight instructions -/

/-- move-right: the cursor moves up by one; when it has reached the tape's length a block of `TAPE_INIT` zero cells is
appended (clipped to a finite `TAPE_CAP`), old cells keep their values, nothing else changes; with a finite `TAPE_CAP`
the move that would reach it raises TapeExhausted instead (41_pointer.md R80). -/
def Obligations.MoveRightResult : Prop :=
  ∀ s : State, s.phase = .running →
    ((∀ c, s.cfg.tapeCap = some c → s.cur + 1 < c) →
      ∃ m, exec .moveRight s = .next { s with cur := s.cur + 1, tape := m, pc := s.pc + 1 } ∧
        (s.cur + 1 ≠ s.tape.len → m.len = s.tape.len) ∧
        (s.cur + 1 = s.tape.len → s.cfg.tapeCap = none → m.len = s.tape.len + s.cfg.tapeInit) ∧
        (∀ c, s.cur + 1 = s.tape.len → s.cfg.tapeCap = some c →
          m.len = s.tape.len + min s.cfg.tapeInit (c - s.tape.len)) ∧
        (∀ a, a < s.tape.len → m.read a = s.tape.read a) ∧
        (s.tape.wf = true → ∀ a, s.tape.len ≤ a → a < m.len → m.read a = some 0#8)) ∧
    (∀ c, s.cfg.tapeCap = some c → c ≤ s.cur + 1 →
      ∃ t, exec .moveRight s = .next t ∧ t.phase = .failed .tapeExhausted ∧ t.env = s.env ∧ t.prog = s.prog ∧ t.jt = s.jt)

/-- move-left: the cursor moves down by one, or stays at 0; nothing else changes but `pc` (41_pointer.md R81). -/
def Obligations.MoveLeftResult : Prop :=
  ∀ s : State, s.phase = .running →
    (0 < s.cur → exec .moveLeft s = .next { s with cur := s.cur - 1, pc := s.pc + 1 }) ∧
    (s.cur = 0 → exec .moveLeft s = .next { s with pc := s.pc + 1 })

/-- increment: the current cell becomes `(v + 1) mod 256`; no other cell, no other state but `pc` changes
(42_arithmetic.md R85). -/
def Obligations.IncrementResult : Prop :=
  ∀ (s : State) (v : Byte), s.phase = .running → s.tape.read s.effectiveAddress = some v →
    ∃ m, exec .increment s = .next { s with tape := m, pc := s.pc + 1 } ∧ m.len = s.tape.len ∧
      (∃ w, m.read s.effectiveAddress = some w ∧ w.toNat = (v.toNat + 1) % 256) ∧
      ∀ a, a ≠ s.effectiveAddress → m.read a = s.tape.read a

/-- decrement: the current cell becomes `(v + 255) mod 256`; no other cell, no other state but `pc` changes
(42_arithmetic.md R86). -/
def Obligations.DecrementResult : Prop :=
  ∀ (s : State) (v : Byte), s.phase = .running → s.tape.read s.effectiveAddress = some v →
    ∃ m, exec .decrement s = .next { s with tape := m, pc := s.pc + 1 } ∧ m.len = s.tape.len ∧
      (∃ w, m.read s.effectiveAddress = some w ∧ w.toNat = (v.toNat + 255) % 256) ∧
      ∀ a, a ≠ s.effectiveAddress → m.read a = s.tape.read a

/-- output: one transaction with the current cell's raw value; accepted, the value is appended to `out` and the
instruction ends with nothing else changed; failed, `out` is unchanged and the run fails with OutputFailure
(43_io.md R90). The answer is the front of `outAns`, or `outRest` when that list is empty (log 14). -/
def Obligations.OutputResult : Prop :=
  ∀ (s : State) (v : Byte), s.phase = .running → s.tape.read s.effectiveAddress = some v →
    (∀ rest, s.env.outAns = .accepted :: rest → exec .output s =
      .next { s with pc := s.pc + 1, env := { s.env with outAns := rest, out := s.env.out ++ [v] } }) ∧
    (s.env.outAns = [] → s.env.outRest = some .accepted → exec .output s =
      .next { s with pc := s.pc + 1, env := { s.env with out := s.env.out ++ [v] } }) ∧
    (∀ rest, s.env.outAns = .failed :: rest → ∃ t, exec .output s = .next t ∧
      t.phase = .failed .outputFailure ∧ t.env = { s.env with outAns := rest }) ∧
    (s.env.outAns = [] → s.env.outRest = some .failed → ∃ t, exec .output s = .next t ∧
      t.phase = .failed .outputFailure ∧ t.env = s.env)

/-- input: the front byte leaves `inp` and is stored raw in the current cell, no other cell and no other state but
`pc` changes; on a closed stream with nothing left the run fails with InputExhausted and nothing is consumed
(43_io.md R91). -/
def Obligations.InputResult : Prop :=
  ∀ s : State, s.phase = .running →
    (∀ b rest, s.env.inp = b :: rest → s.effectiveAddress < s.tape.len →
      ∃ m, exec .input s = .next { s with tape := m, pc := s.pc + 1, env := { s.env with inp := rest } } ∧
        m.len = s.tape.len ∧ m.read s.effectiveAddress = some b ∧
        ∀ a, a ≠ s.effectiveAddress → m.read a = s.tape.read a) ∧
    (s.env.inp = [] → s.env.inClosed = true → ∃ t, exec .input s = .next t ∧
      t.phase = .failed .inputExhausted ∧ t.env = s.env)

/-- jump-if-zero: a cell that is not 0 falls through without consulting the table; a zero cell continues after the
paired closer; a zero cell at an opener without an entry fails with JumpTargetMissing and its index; nothing but `pc`
changes (44_control.md R95). -/
def Obligations.JumpIfZeroResult : Prop :=
  ∀ (s : State) (v : Byte), s.phase = .running → s.tape.read s.effectiveAddress = some v →
    (v ≠ 0#8 → exec .jumpIfZero s = .next { s with pc := s.pc + 1 }) ∧
    (∀ j, v = 0#8 → s.jt.lookup s.pc = some j → exec .jumpIfZero s = .next { s with pc := j + 1 }) ∧
    (v = 0#8 → s.jt.lookup s.pc = none → ∃ t, exec .jumpIfZero s = .next t ∧
      t.phase = .failed (.jumpTargetMissing s.pc) ∧ t.env = s.env ∧ t.prog = s.prog ∧ t.jt = s.jt)

/-- jump-if-nonzero: a zero cell falls through; any other continues after the paired opener; nothing but `pc` changes;
in a run the entry is always there, so it never raises (44_control.md R96). -/
def Obligations.JumpIfNonzeroResult : Prop :=
  (∀ (s : State) (v : Byte), s.phase = .running → s.tape.read s.effectiveAddress = some v →
    (v = 0#8 → exec .jumpIfNonzero s = .next { s with pc := s.pc + 1 }) ∧
    (∀ j, v ≠ 0#8 → s.jt.lookup s.pc = some j → exec .jumpIfNonzero s = .next { s with pc := j + 1 })) ∧
  (∀ s : State, s.Inv → s.phase = .running → s.prog[s.pc]? = some .jumpIfNonzero →
    (∃ j, s.jt.lookup s.pc = some j ∧ j < s.pc) ∧ ∃ t, exec .jumpIfNonzero s = .next t ∧ t.phase = .running)

/-- Blocked at a port, input and output leave the whole state as it is (20_memory.md section 3, 43_io.md R94 as the
identity step of log 12). -/
def Obligations.UnansweredTransactionChangesNothing : Prop :=
  ∀ s : State, s.phase = .running →
    (s.env.inp = [] → s.env.inClosed = false → exec .input s = .next s) ∧
    (∀ v, s.tape.read s.effectiveAddress = some v → s.env.outAns = [] → s.env.outRest = none →
      exec .output s = .next s)

/-- Where the current cell does not exist, the instructions that access it fault by name: the model's own stop in
states no run reaches (log 6). -/
def Obligations.MissingCellFaultsByName : Prop :=
  ∀ (s : State) (i : Instr), s.phase = .running → s.tape.len ≤ s.effectiveAddress →
    (i = .increment ∨ i = .decrement ∨ i = .output ∨ i = .jumpIfZero ∨ i = .jumpIfNonzero ∨
      (i = .input ∧ s.env.inp ≠ [])) →
    exec i s = .fault (.noCell s.effectiveAddress)

/-- The frame of all eight: an instruction that completes changes no cell but the current one, and that only if it
is increment, decrement or input; only move-right changes the length; only the moves change `cur`; only the brackets
send `pc` elsewhere than to the next index (a blocked one leaves it); `phase` stays Running (10_state.md section 1). -/
def Obligations.CompletedInstructionFrame : Prop :=
  ∀ (i : Instr) (s t : State), s.phase = .running → exec i s = .next t → (∀ c, t.phase ≠ .failed c) →
    (∀ a, a ≠ s.effectiveAddress → a < s.tape.len → t.tape.read a = s.tape.read a) ∧
    (i ≠ .increment → i ≠ .decrement → i ≠ .input → ∀ a, a < s.tape.len → t.tape.read a = s.tape.read a) ∧
    (i ≠ .moveRight → t.tape.len = s.tape.len) ∧
    (i ≠ .moveRight → i ≠ .moveLeft → t.cur = s.cur) ∧
    (i ≠ .jumpIfZero → i ≠ .jumpIfNonzero → t.pc = s.pc + 1 ∨ t = s) ∧
    t.phase = .running ∧ t.env.rst = s.env.rst ∧ t.env.outPast = s.env.outPast ∧
    t.env.inClosed = s.env.inClosed ∧ t.env.outRest = s.env.outRest

/-- No instruction and no step after the load writes the program or the table: every fetch returns the opcode the
loader placed (20_memory.md R44). -/
def Obligations.LoadedProgramIsNeverWritten : Prop :=
  (∀ (i : Instr) (s t : State), exec i s = .next t →
    t.prog = s.prog ∧ t.jt = s.jt ∧ t.cfg = s.cfg ∧ t.src = s.src ∧ t.bstk = s.bstk) ∧
  (∀ s t : State, s.env.rst = none → (∀ st, s.phase ≠ .loading st) → step s = .next t →
    t.prog = s.prog ∧ t.jt = s.jt ∧ t.cfg = s.cfg ∧ t.src = s.src)

/-- Which instruction can raise what: move-left, increment, decrement and jump-if-nonzero nothing; move-right
TapeExhausted with a finite `TAPE_CAP`; jump-if-zero JumpTargetMissing at an unpaired opener with a zero cell; output
OutputFailure; input InputExhausted; the fetch nothing (60_exceptions.md R101). -/
def Obligations.EachInstructionRaisesOnlyItsOwnCause : Prop :=
  (∀ (i : Instr) (s t : State) (c : Cause), s.phase = .running → exec i s = .next t → t.phase = .failed c →
    (i = .moveRight ∧ c = .tapeExhausted ∧ ∃ n, s.cfg.tapeCap = some n) ∨
    (i = .jumpIfZero ∧ c = .jumpTargetMissing s.pc ∧ s.jt.lookup s.pc = none ∧
      s.tape.read s.effectiveAddress = some 0#8) ∨
    (i = .output ∧ c = .outputFailure) ∨ (i = .input ∧ c = .inputExhausted)) ∧
  (∀ s : State, s.env.rst = none → s.phase = .running → s.prog[s.pc]? = none →
    ∀ t c, step s = .next t → t.phase ≠ .failed c)

/-- With `STRICT_OPENERS = true` a running machine never fails with JumpTargetMissing (44_control.md section on
jump-if-zero, exceptions). -/
def Obligations.StrictMachineNeverMissesAJumpTarget : Prop :=
  ∀ s t : State, s.Inv → s.cfg.strictOpeners = true → s.phase = .running → s.env.rst = none →
    step s = .next t → ∀ i, t.phase ≠ .failed (.jumpTargetMissing i)

/-! ### Laws of sequences -/

/-- Increments and decrements of one cell in any interleaving leave `v + n - m` modulo 256 and change nothing else
but `pc` (40_execution_cycle.md section 2, the group law). -/
def Obligations.CellArithmeticIsAGroup : Prop :=
  ∀ (l : List Instr) (s : State) (v : Byte), (∀ i ∈ l, i = .increment ∨ i = .decrement) →
    s.phase = .running → s.tape.read s.effectiveAddress = some v →
    ∃ m, execSeq l s = .next { s with tape := m, pc := s.pc + l.length } ∧ m.len = s.tape.len ∧
      (∃ w, m.read s.effectiveAddress = some w ∧
        w.toNat = (v.toNat + l.count .increment + 255 * l.count .decrement) % 256) ∧
      ∀ a, a ≠ s.effectiveAddress → m.read a = s.tape.read a

/-- With an unbounded tape, `n` move-rights move the cursor up by `n` onto an existing cell and keep every old cell,
`n` move-lefts after them bring it back, and `n` move-lefts from `c` end at `max(c - n, 0)` with everything else
unchanged (41_pointer.md section on the laws of the family). -/
def Obligations.CursorMovesCompose : Prop :=
  ∀ (s : State) (n : Nat), s.phase = .running → s.cfg.tapeCap = none → 1 ≤ s.cfg.tapeInit → s.cur < s.tape.len →
    (∃ m, execSeq (List.replicate n .moveRight) s = .next { s with cur := s.cur + n, tape := m, pc := s.pc + n } ∧
      s.cur + n < m.len ∧ (∀ a, a < s.tape.len → m.read a = s.tape.read a) ∧
      execSeq (List.replicate n .moveRight ++ List.replicate n .moveLeft) s =
        .next { s with tape := m, pc := s.pc + n + n }) ∧
    execSeq (List.replicate n .moveLeft) s = .next { s with cur := s.cur - n, pc := s.pc + n }

/-- What a pair means on arrival: at the opener a zero cell goes past the closer and any other enters the body; at
the closer a zero cell leaves and any other re-enters the body (44_control.md section on paired loops). -/
def Obligations.PairedLoopArrivals : Prop :=
  ∀ (s : State) (i j : Nat) (v : Byte), s.Inv → s.phase = .running → s.env.rst = none →
    s.jt.lookup i = some j → i < j → s.tape.read s.effectiveAddress = some v →
    (s.pc = i ∨ s.pc = j) → step s = .next { s with pc := if v = 0#8 then j + 1 else i + 1 }

/-- A closer right after its opener, met with a cell that is not 0, repeats for ever: the machine stays in the same
running state (44_control.md section on jump-if-nonzero, corner case b; 40_execution_cycle.md, non-termination). -/
def Obligations.EmptyLoopSpinsForEver : Prop :=
  ∀ (s : State) (i : Nat) (v : Byte), s.env.rst = none → s.phase = .running → s.pc = i + 1 →
    s.prog[s.pc]? = some .jumpIfNonzero → s.jt.lookup s.pc = some i → s.tape.read s.effectiveAddress = some v →
    v ≠ 0#8 → ∀ n, runSteps n s = .next s

/-! ### The whole machine -/

/-- The state after reset meets the invariant. -/
def Obligations.ResetStateMeetsTheInvariant : Prop := State.reset.Inv

/-- From every state that meets the invariant the machine takes a step: no fault, no refusal, in any phase, on any
instruction and any data; and the invariant holds again. So the current cell exists at every instruction boundary,
`pc` stays within the program, every closer keeps its entry, the tape stays canonical, within its capacity and in
whole blocks (10_state.md and 20_memory.md: the range of `pc`, the run's invariants, bounds; 30_encoding.md: the
table's properties). -/
def Obligations.EveryStepAnswersAndKeepsTheInvariant : Prop :=
  ∀ s : State, s.Inv → ∃ t, step s = .next t ∧ t.Inv

/-- The tape's canonical form is kept by every step that does not fail, from any state that has it, and from a failed
state whatever its tape holds (log 5; 60_exceptions.md R107). -/
def Obligations.EveryStepKeepsTheTapeCanonical : Prop :=
  ∀ s t : State, ((∀ c, s.phase ≠ .failed c) → s.tape.wf = true) → step s = .next t → (∀ c, t.phase ≠ .failed c) → t.tape.wf = true

/-- Two canonical tapes that read the same everywhere are the same data (log 5). -/
def Obligations.EqualTapesAreEqualData : Prop :=
  ∀ m n : Memory, m.wf = true → n.wf = true → (∀ a, m.read a = n.read a) → m = n

/-- One step appends at most one byte to what the output port has accepted and withdraws none, and takes at most one
byte from the front of the input; also when it fails and when it resets (10_state.md: the input stream, the output
log; 60_exceptions.md: the state after a failure). -/
def Obligations.StreamsMoveOneByteAtMost : Prop :=
  ∀ s t : State, step s = .next t →
    (∃ l, t.env.outPast ++ t.env.out = (s.env.outPast ++ s.env.out) ++ l ∧ l.length ≤ 1) ∧
    (∃ k, s.env.inp = k ++ t.env.inp ∧ k.length ≤ 1)

/-- The load phase makes no port transaction (70_reset_and_hazards.md section 1). -/
def Obligations.LoadPhaseMakesNoPortTransaction : Prop :=
  ∀ (s t : State) (st : LoadStage), s.env.rst = none → s.phase = .loading st → step s = .next t →
    t.env.inp = s.env.inp ∧ t.env.inClosed = s.env.inClosed ∧ t.env.outAns = s.env.outAns ∧
    t.env.outRest = s.env.outRest ∧ t.env.outPast ++ t.env.out = s.env.outPast ++ s.env.out

/-- The six instructions other than output and input neither read nor write the environment: they do the same in
any, except for what a failed state leaves unspecified (40_execution_cycle.md section 1, determinism). -/
def Obligations.OtherSixInstructionsIgnoreThePorts : Prop :=
  ∀ (i : Instr) (s : State) (e : Env), i ≠ .output → i ≠ .input → s.phase = .running →
    (∀ t, exec i s = .next t → t.env = s.env ∧
      ∃ u, exec i (s.setEnv e) = .next u ∧ u.SameForClaims (t.setEnv e)) ∧
    (∀ r, exec i s = .fault r → exec i (s.setEnv e) = .fault r)

/-- The tape's length and the block size cannot be observed: two running machines that differ only in them take
steps that differ only in them, with the current cell in both; when the step fails, both fail alike (10_state.md
section 3). -/
def Obligations.TapeLengthIsUnobservable : Prop :=
  ∀ (s t : State) (len block : Nat), s.phase = .running → s.env.rst = none → 1 ≤ s.cfg.tapeInit → 1 ≤ block →
    s.cur < s.tape.len → s.cur < len → (∀ c, s.cfg.tapeCap = some c → s.tape.len ≤ c ∧ len ≤ c) →
    step s = .next t →
    ∃ len' u, step (s.withTapeShape len block) = .next u ∧ u.SameForClaims (t.withTapeShape len' block) ∧
      (t.phase = .running → t.cur < t.tape.len ∧ t.cur < len' ∧
        ∀ c, t.cfg.tapeCap = some c → t.tape.len ≤ c ∧ len' ≤ c)

/-- Control reaches an unpaired opener at most once: once `pc` is at it or past it, every later running state is
past it (44_control.md section on unpaired openers). -/
def Obligations.UnpairedOpenerIsPassedForGood : Prop :=
  ∀ (s t : State) (k : Nat), s.Inv → s.phase = .running → s.env.rst = none → s.prog[k]? = some .jumpIfZero →
    s.jt.lookup k = none → k ≤ s.pc → step s = .next t → t.phase = .running → k < t.pc

/-! ### The host's side -/

/-- The STATUS port shows the phase and, when Failed, the cause's code and info (60_exceptions.md section 1,
70_reset_and_hazards.md section 3). -/
def Obligations.StatusShowsPhaseCodeAndInfo : Prop :=
  ∀ s : State,
    (∀ st, s.phase = .loading st → s.status = .loading) ∧ (s.phase = .running → s.status = .running) ∧
    (s.phase = .halted → s.status = .halted) ∧
    (∀ i, (s.raise (.unbalancedBracket i)).status = .failed 1 (some i)) ∧
    (s.raise .inputExhausted).status = .failed 2 none ∧ (s.raise .outputFailure).status = .failed 3 none ∧
    (∀ i, (s.raise (.jumpTargetMissing i)).status = .failed 4 (some i)) ∧
    (s.raise .tapeExhausted).status = .failed 5 none ∧ (s.raise .programStoreExhausted).status = .failed 6 none

/-- The host cannot touch the core's state or the log of accepted bytes; closed input takes no more bytes
(70_reset_and_hazards.md section 3; how a move settles later answers is log 21). -/
def Obligations.HostMovesLeaveTheCoreAlone : Prop :=
  ∀ (s : State) (m : HostMove),
    (∃ e, (s.hostMove m).SameForClaims (s.setEnv e) ∧ e.out = s.env.out ∧ e.outPast = s.env.outPast) ∧
    ∀ bytes, ((s.hostMove .closeInput).hostMove (.supplyInput bytes)).SameForClaims (s.hostMove .closeInput)
end

