-- ==== Sys2Proof/Laws/State.lean ====
section
/-! SUPPORT. One lemma per field per named update of State, and the same for Env. -/

namespace Sys2Proof.Machine

@[simp] theorem State.setPc_cfg (s : State) (v : Nat) : (s.setPc v).cfg = s.cfg := rfl
@[simp] theorem State.setPc_src (s : State) (v : Nat) : (s.setPc v).src = s.src := rfl
@[simp] theorem State.setPc_bstk (s : State) (v : Nat) : (s.setPc v).bstk = s.bstk := rfl
@[simp] theorem State.setPc_prog (s : State) (v : Nat) : (s.setPc v).prog = s.prog := rfl
@[simp] theorem State.setPc_jt (s : State) (v : Nat) : (s.setPc v).jt = s.jt := rfl
@[simp] theorem State.setPc_tape (s : State) (v : Nat) : (s.setPc v).tape = s.tape := rfl
@[simp] theorem State.setPc_pc (s : State) (v : Nat) : (s.setPc v).pc = v := rfl
@[simp] theorem State.setPc_cur (s : State) (v : Nat) : (s.setPc v).cur = s.cur := rfl
@[simp] theorem State.setPc_phase (s : State) (v : Nat) : (s.setPc v).phase = s.phase := rfl
@[simp] theorem State.setPc_env (s : State) (v : Nat) : (s.setPc v).env = s.env := rfl

@[simp] theorem State.setCur_cfg (s : State) (v : Nat) : (s.setCur v).cfg = s.cfg := rfl
@[simp] theorem State.setCur_src (s : State) (v : Nat) : (s.setCur v).src = s.src := rfl
@[simp] theorem State.setCur_bstk (s : State) (v : Nat) : (s.setCur v).bstk = s.bstk := rfl
@[simp] theorem State.setCur_prog (s : State) (v : Nat) : (s.setCur v).prog = s.prog := rfl
@[simp] theorem State.setCur_jt (s : State) (v : Nat) : (s.setCur v).jt = s.jt := rfl
@[simp] theorem State.setCur_tape (s : State) (v : Nat) : (s.setCur v).tape = s.tape := rfl
@[simp] theorem State.setCur_pc (s : State) (v : Nat) : (s.setCur v).pc = s.pc := rfl
@[simp] theorem State.setCur_cur (s : State) (v : Nat) : (s.setCur v).cur = v := rfl
@[simp] theorem State.setCur_phase (s : State) (v : Nat) : (s.setCur v).phase = s.phase := rfl
@[simp] theorem State.setCur_env (s : State) (v : Nat) : (s.setCur v).env = s.env := rfl

@[simp] theorem State.setTape_cfg (s : State) (m : Memory) : (s.setTape m).cfg = s.cfg := rfl
@[simp] theorem State.setTape_src (s : State) (m : Memory) : (s.setTape m).src = s.src := rfl
@[simp] theorem State.setTape_bstk (s : State) (m : Memory) : (s.setTape m).bstk = s.bstk := rfl
@[simp] theorem State.setTape_prog (s : State) (m : Memory) : (s.setTape m).prog = s.prog := rfl
@[simp] theorem State.setTape_jt (s : State) (m : Memory) : (s.setTape m).jt = s.jt := rfl
@[simp] theorem State.setTape_tape (s : State) (m : Memory) : (s.setTape m).tape = m := rfl
@[simp] theorem State.setTape_pc (s : State) (m : Memory) : (s.setTape m).pc = s.pc := rfl
@[simp] theorem State.setTape_cur (s : State) (m : Memory) : (s.setTape m).cur = s.cur := rfl
@[simp] theorem State.setTape_phase (s : State) (m : Memory) : (s.setTape m).phase = s.phase := rfl
@[simp] theorem State.setTape_env (s : State) (m : Memory) : (s.setTape m).env = s.env := rfl

@[simp] theorem State.setPhase_cfg (s : State) (p : Phase) : (s.setPhase p).cfg = s.cfg := rfl
@[simp] theorem State.setPhase_src (s : State) (p : Phase) : (s.setPhase p).src = s.src := rfl
@[simp] theorem State.setPhase_bstk (s : State) (p : Phase) : (s.setPhase p).bstk = s.bstk := rfl
@[simp] theorem State.setPhase_prog (s : State) (p : Phase) : (s.setPhase p).prog = s.prog := rfl
@[simp] theorem State.setPhase_jt (s : State) (p : Phase) : (s.setPhase p).jt = s.jt := rfl
@[simp] theorem State.setPhase_tape (s : State) (p : Phase) : (s.setPhase p).tape = s.tape := rfl
@[simp] theorem State.setPhase_pc (s : State) (p : Phase) : (s.setPhase p).pc = s.pc := rfl
@[simp] theorem State.setPhase_cur (s : State) (p : Phase) : (s.setPhase p).cur = s.cur := rfl
@[simp] theorem State.setPhase_phase (s : State) (p : Phase) : (s.setPhase p).phase = p := rfl
@[simp] theorem State.setPhase_env (s : State) (p : Phase) : (s.setPhase p).env = s.env := rfl

@[simp] theorem State.setEnv_cfg (s : State) (e : Env) : (s.setEnv e).cfg = s.cfg := rfl
@[simp] theorem State.setEnv_src (s : State) (e : Env) : (s.setEnv e).src = s.src := rfl
@[simp] theorem State.setEnv_bstk (s : State) (e : Env) : (s.setEnv e).bstk = s.bstk := rfl
@[simp] theorem State.setEnv_prog (s : State) (e : Env) : (s.setEnv e).prog = s.prog := rfl
@[simp] theorem State.setEnv_jt (s : State) (e : Env) : (s.setEnv e).jt = s.jt := rfl
@[simp] theorem State.setEnv_tape (s : State) (e : Env) : (s.setEnv e).tape = s.tape := rfl
@[simp] theorem State.setEnv_pc (s : State) (e : Env) : (s.setEnv e).pc = s.pc := rfl
@[simp] theorem State.setEnv_cur (s : State) (e : Env) : (s.setEnv e).cur = s.cur := rfl
@[simp] theorem State.setEnv_phase (s : State) (e : Env) : (s.setEnv e).phase = s.phase := rfl
@[simp] theorem State.setEnv_env (s : State) (e : Env) : (s.setEnv e).env = e := rfl

@[simp] theorem State.advance_cfg (s : State) : (s.advance).cfg = s.cfg := rfl
@[simp] theorem State.advance_src (s : State) : (s.advance).src = s.src := rfl
@[simp] theorem State.advance_bstk (s : State) : (s.advance).bstk = s.bstk := rfl
@[simp] theorem State.advance_prog (s : State) : (s.advance).prog = s.prog := rfl
@[simp] theorem State.advance_jt (s : State) : (s.advance).jt = s.jt := rfl
@[simp] theorem State.advance_tape (s : State) : (s.advance).tape = s.tape := rfl
@[simp] theorem State.advance_pc (s : State) : (s.advance).pc = s.pc + 1 := rfl
@[simp] theorem State.advance_cur (s : State) : (s.advance).cur = s.cur := rfl
@[simp] theorem State.advance_phase (s : State) : (s.advance).phase = s.phase := rfl
@[simp] theorem State.advance_env (s : State) : (s.advance).env = s.env := rfl

@[simp] theorem State.raise_cfg (s : State) (c : Cause) : (s.raise c).cfg = s.cfg := rfl
@[simp] theorem State.raise_src (s : State) (c : Cause) : (s.raise c).src = s.src := rfl
@[simp] theorem State.raise_bstk (s : State) (c : Cause) : (s.raise c).bstk = s.bstk := rfl
@[simp] theorem State.raise_prog (s : State) (c : Cause) : (s.raise c).prog = s.prog := rfl
@[simp] theorem State.raise_jt (s : State) (c : Cause) : (s.raise c).jt = s.jt := rfl
@[simp] theorem State.raise_tape (s : State) (c : Cause) : (s.raise c).tape = s.tape := rfl
@[simp] theorem State.raise_pc (s : State) (c : Cause) : (s.raise c).pc = s.pc := rfl
@[simp] theorem State.raise_cur (s : State) (c : Cause) : (s.raise c).cur = s.cur := rfl
@[simp] theorem State.raise_phase (s : State) (c : Cause) : (s.raise c).phase = .failed c := rfl
@[simp] theorem State.raise_env (s : State) (c : Cause) : (s.raise c).env = s.env := rfl

@[simp] theorem State.halt_cfg (s : State) : (s.halt).cfg = s.cfg := rfl
@[simp] theorem State.halt_src (s : State) : (s.halt).src = s.src := rfl
@[simp] theorem State.halt_bstk (s : State) : (s.halt).bstk = s.bstk := rfl
@[simp] theorem State.halt_prog (s : State) : (s.halt).prog = s.prog := rfl
@[simp] theorem State.halt_jt (s : State) : (s.halt).jt = s.jt := rfl
@[simp] theorem State.halt_tape (s : State) : (s.halt).tape = s.tape := rfl
@[simp] theorem State.halt_pc (s : State) : (s.halt).pc = s.pc := rfl
@[simp] theorem State.halt_cur (s : State) : (s.halt).cur = s.cur := rfl
@[simp] theorem State.halt_phase (s : State) : (s.halt).phase = .halted := rfl
@[simp] theorem State.halt_env (s : State) : (s.halt).env = s.env := rfl

@[simp] theorem State.wait_cfg (s : State) : (s.wait).cfg = s.cfg := rfl
@[simp] theorem State.wait_src (s : State) : (s.wait).src = s.src := rfl
@[simp] theorem State.wait_bstk (s : State) : (s.wait).bstk = s.bstk := rfl
@[simp] theorem State.wait_prog (s : State) : (s.wait).prog = s.prog := rfl
@[simp] theorem State.wait_jt (s : State) : (s.wait).jt = s.jt := rfl
@[simp] theorem State.wait_tape (s : State) : (s.wait).tape = s.tape := rfl
@[simp] theorem State.wait_pc (s : State) : (s.wait).pc = s.pc := rfl
@[simp] theorem State.wait_cur (s : State) : (s.wait).cur = s.cur := rfl
@[simp] theorem State.wait_phase (s : State) : (s.wait).phase = s.phase := rfl
@[simp] theorem State.wait_env (s : State) : (s.wait).env = s.env := rfl

@[simp] theorem State.runStart_cfg (s : State) : (s.runStart).cfg = s.cfg := rfl
@[simp] theorem State.runStart_src (s : State) : (s.runStart).src = s.src := rfl
@[simp] theorem State.runStart_bstk (s : State) : (s.runStart).bstk = [] := rfl
@[simp] theorem State.runStart_prog (s : State) : (s.runStart).prog = s.prog := rfl
@[simp] theorem State.runStart_jt (s : State) : (s.runStart).jt = s.jt := rfl
@[simp] theorem State.runStart_tape (s : State) : (s.runStart).tape = Memory.zeros s.cfg.tapeInit := rfl
@[simp] theorem State.runStart_pc (s : State) : (s.runStart).pc = 0 := rfl
@[simp] theorem State.runStart_cur (s : State) : (s.runStart).cur = 0 := rfl
@[simp] theorem State.runStart_phase (s : State) : (s.runStart).phase = .running := rfl
@[simp] theorem State.runStart_env (s : State) : (s.runStart).env = s.env.archiveOut := rfl

@[simp] theorem State.beginScan_cfg (s : State) : (s.beginScan).cfg = s.cfg := rfl
@[simp] theorem State.beginScan_src (s : State) : (s.beginScan).src = s.src := rfl
@[simp] theorem State.beginScan_bstk (s : State) : (s.beginScan).bstk = [] := rfl
@[simp] theorem State.beginScan_prog (s : State) : (s.beginScan).prog = s.prog := rfl
@[simp] theorem State.beginScan_jt (s : State) : (s.beginScan).jt = [] := rfl
@[simp] theorem State.beginScan_tape (s : State) : (s.beginScan).tape = s.tape := rfl
@[simp] theorem State.beginScan_pc (s : State) : (s.beginScan).pc = s.pc := rfl
@[simp] theorem State.beginScan_cur (s : State) : (s.beginScan).cur = s.cur := rfl
@[simp] theorem State.beginScan_phase (s : State) : (s.beginScan).phase = .loading (.build 0) := rfl
@[simp] theorem State.beginScan_env (s : State) : (s.beginScan).env = s.env := rfl

@[simp] theorem State.doReset_cfg (s : State) (r : ResetRequest) : (s.doReset r).cfg = r.cfg := rfl
@[simp] theorem State.doReset_src (s : State) (r : ResetRequest) : (s.doReset r).src = r.src := rfl
@[simp] theorem State.doReset_bstk (s : State) (r : ResetRequest) : (s.doReset r).bstk = [] := rfl
@[simp] theorem State.doReset_prog (s : State) (r : ResetRequest) : (s.doReset r).prog = [] := rfl
@[simp] theorem State.doReset_jt (s : State) (r : ResetRequest) : (s.doReset r).jt = [] := rfl
@[simp] theorem State.doReset_tape (s : State) (r : ResetRequest) : (s.doReset r).tape = Memory.absent := rfl
@[simp] theorem State.doReset_pc (s : State) (r : ResetRequest) : (s.doReset r).pc = 0 := rfl
@[simp] theorem State.doReset_cur (s : State) (r : ResetRequest) : (s.doReset r).cur = 0 := rfl
@[simp] theorem State.doReset_phase (s : State) (r : ResetRequest) : (s.doReset r).phase = .loading (.filter 0) := rfl

@[simp] theorem Env.archiveOut_inp (e : Env) : e.archiveOut.inp = e.inp := rfl
@[simp] theorem Env.archiveOut_inClosed (e : Env) : e.archiveOut.inClosed = e.inClosed := rfl
@[simp] theorem Env.archiveOut_out (e : Env) : e.archiveOut.out = [] := rfl
@[simp] theorem Env.archiveOut_outPast (e : Env) : e.archiveOut.outPast = e.outPast ++ e.out := rfl
@[simp] theorem Env.archiveOut_outAns (e : Env) : e.archiveOut.outAns = e.outAns := rfl
@[simp] theorem Env.archiveOut_outRest (e : Env) : e.archiveOut.outRest = e.outRest := rfl
@[simp] theorem Env.archiveOut_rst (e : Env) : e.archiveOut.rst = e.rst := rfl

@[simp] theorem State.doReset_env_inp (s : State) (r : ResetRequest) : (s.doReset r).env.inp = s.env.inp := rfl
@[simp] theorem State.doReset_env_inClosed (s : State) (r : ResetRequest) : (s.doReset r).env.inClosed = s.env.inClosed := rfl
@[simp] theorem State.doReset_env_out (s : State) (r : ResetRequest) : (s.doReset r).env.out = [] := rfl
@[simp] theorem State.doReset_env_outPast (s : State) (r : ResetRequest) : (s.doReset r).env.outPast = s.env.outPast ++ s.env.out := rfl
@[simp] theorem State.doReset_env_outAns (s : State) (r : ResetRequest) : (s.doReset r).env.outAns = s.env.outAns := rfl
@[simp] theorem State.doReset_env_outRest (s : State) (r : ResetRequest) : (s.doReset r).env.outRest = s.env.outRest := rfl
@[simp] theorem State.doReset_env_rst (s : State) (r : ResetRequest) : (s.doReset r).env.rst = none := rfl

@[simp] theorem State.wait_eq (s : State) : s.wait = s := rfl
@[simp] theorem State.effectiveAddress_eq (s : State) : s.effectiveAddress = s.cur := rfl

end Sys2Proof.Machine
end

