-- ==== Sys2Proof/Laws/Memory.lean ====
section
/-! SUPPORT. Laws of the sparse stores: lookup after insert and erase, the canonical form, the tape's reads. -/

namespace Sys2Proof.Machine

section Assoc
variable {α : Type}

@[simp] theorem assocLookup_insert_self (l : List (Nat × α)) (a : Nat) (v : α) :
    assocLookup (assocInsert a v l) a = some v := by
  induction l with
  | nil => simp [assocInsert, assocLookup]
  | cons e rest ih =>
    obtain ⟨k, w⟩ := e
    by_cases h1 : a < k
    · simp [assocInsert, assocLookup, h1]
    · by_cases h2 : a = k
      · simp [assocInsert, assocLookup, h2]
      · simp [assocInsert, assocLookup, h1, h2, Ne.symm h2, ih]

theorem assocLookup_insert_of_ne (l : List (Nat × α)) {a b : Nat} (v : α) (h : b ≠ a) :
    assocLookup (assocInsert a v l) b = assocLookup l b := by
  induction l with
  | nil => simp [assocInsert, assocLookup, Ne.symm h]
  | cons e rest ih =>
    obtain ⟨k, w⟩ := e
    by_cases h1 : a < k
    · simp [assocInsert, assocLookup, h1, Ne.symm h]
    · by_cases h2 : a = k
      · subst h2; simp [assocInsert, assocLookup, Ne.symm h]
      · simp [assocInsert, assocLookup, h1, h2, ih]

theorem assocLookup_insert (l : List (Nat × α)) (a b : Nat) (v : α) :
    assocLookup (assocInsert a v l) b = if b = a then some v else assocLookup l b := by
  split
  · next h => subst h; simp
  · next h => exact assocLookup_insert_of_ne l v h

@[simp] theorem assocLookup_erase_self (l : List (Nat × α)) (a : Nat) :
    assocLookup (assocErase a l) a = none := by
  induction l with
  | nil => rfl
  | cons e rest ih =>
    obtain ⟨k, w⟩ := e
    by_cases h : k = a
    · simpa [assocErase, h] using ih
    · simp only [assocErase, List.filter_cons, ne_eq, h, not_false_eq_true, decide_true, if_true, assocLookup, if_false]
      exact ih

theorem assocLookup_erase_of_ne (l : List (Nat × α)) {a b : Nat} (h : b ≠ a) :
    assocLookup (assocErase a l) b = assocLookup l b := by
  induction l with
  | nil => rfl
  | cons e rest ih =>
    obtain ⟨k, w⟩ := e
    by_cases hk : k = a
    · subst hk
      simp only [assocErase, List.filter_cons, ne_eq, not_true, decide_false, Bool.false_eq_true, if_false, assocLookup,
        Ne.symm h] at ih ⊢
      exact ih
    · simp only [assocErase, List.filter_cons, ne_eq, hk, not_false_eq_true, decide_true, if_true, assocLookup] at ih ⊢
      rw [ih]

theorem keysAbove_iff (a : Nat) (l : List (Nat × α)) : keysAbove a l = true ↔ ∀ e ∈ l, a < e.1 := by
  induction l with
  | nil => simp [keysAbove]
  | cons e rest ih => obtain ⟨k, w⟩ := e; simp [keysAbove, ih]

theorem keysRising_iff (l : List (Nat × α)) : keysRising l = true ↔ l.Pairwise (fun e f => e.1 < f.1) := by
  induction l with
  | nil => simp [keysRising]
  | cons e rest ih => obtain ⟨k, w⟩ := e; simp [keysRising, keysAbove_iff, ih]

theorem mem_assocInsert (l : List (Nat × α)) (a : Nat) (v : α) (e : Nat × α) (h : e ∈ assocInsert a v l) :
    e = (a, v) ∨ e ∈ l := by
  induction l with
  | nil => simpa [assocInsert] using h
  | cons f rest ih =>
    obtain ⟨k, w⟩ := f
    simp only [assocInsert] at h
    split at h
    · simpa using h
    · split at h
      · simp only [List.mem_cons] at h ⊢; tauto
      · simp only [List.mem_cons] at h ⊢
        rcases h with h | h
        · exact .inr (.inl h)
        · exact (ih h).imp_right .inr

/-- Inserting keeps the canonical form. -/
theorem keysRising_insert (l : List (Nat × α)) (a : Nat) (v : α) (h : keysRising l = true) :
    keysRising (assocInsert a v l) = true := by
  induction l with
  | nil => rfl
  | cons e rest ih =>
    obtain ⟨k, w⟩ := e
    have hk := (keysRising_iff _).1 h
    obtain ⟨h1, h2⟩ := List.pairwise_cons.1 hk
    simp only [assocInsert]
    split
    · next hlt =>
      rw [keysRising_iff, List.pairwise_cons]
      refine ⟨fun e he => ?_, hk⟩
      rcases List.mem_cons.1 he with rfl | he
      · exact hlt
      · exact Nat.lt_trans hlt (h1 e he)
    · split
      · next heq => subst heq; rw [keysRising_iff, List.pairwise_cons]; exact ⟨h1, h2⟩
      · next hlt heq =>
        rw [keysRising_iff, List.pairwise_cons]
        refine ⟨fun e he => ?_, (keysRising_iff _).1 (ih ((keysRising_iff _).2 h2))⟩
        rcases mem_assocInsert _ _ _ _ he with rfl | he
        · simp only; omega
        · exact h1 e he

/-- Erasing keeps the canonical form. -/
theorem keysRising_erase (l : List (Nat × α)) (a : Nat) (h : keysRising l = true) :
    keysRising (assocErase a l) = true :=
  (keysRising_iff _).2 (((keysRising_iff _).1 h).sublist List.filter_sublist)

/-- An entry of a rising list is what its key looks up. -/
theorem assocLookup_of_mem (l : List (Nat × α)) (h : keysRising l = true) {a : Nat} {v : α} (hm : (a, v) ∈ l) :
    assocLookup l a = some v := by
  induction l with
  | nil => simp at hm
  | cons e rest ih =>
    obtain ⟨k, w⟩ := e
    obtain ⟨h1, h2⟩ := List.pairwise_cons.1 ((keysRising_iff _).1 h)
    rcases List.mem_cons.1 hm with heq | hm
    · cases heq; simp [assocLookup]
    · have := h1 _ hm
      simp only [assocLookup, Nat.ne_of_lt this, if_false]
      exact ih ((keysRising_iff _).2 h2) hm

theorem mem_of_assocLookup (l : List (Nat × α)) {a : Nat} {v : α} (h : assocLookup l a = some v) : (a, v) ∈ l := by
  induction l with
  | nil => simp [assocLookup] at h
  | cons e rest ih =>
    obtain ⟨k, w⟩ := e
    simp only [assocLookup] at h
    split at h
    · next hk => subst hk; simp_all
    · exact List.mem_cons_of_mem _ (ih h)

end Assoc

/-- What reading one cell gives, said once. -/
theorem Memory.read_eq_some (m : Memory) (a : Nat) (v : Byte) :
    m.read a = some v ↔ a < m.len ∧ (assocLookup m.cells a).getD unwrittenCell = v := by
  simp only [Memory.read]; split <;> simp_all

theorem Memory.read_eq_none (m : Memory) (a : Nat) : m.read a = none ↔ m.len ≤ a := by
  simp only [Memory.read]; split <;> simp_all

theorem Memory.read_isSome (m : Memory) (a : Nat) : (m.read a).isSome = true ↔ a < m.len := by
  simp only [Memory.read]; split <;> simp_all

@[simp] theorem Memory.write_len (m : Memory) (a : Nat) (v : Byte) : (m.write a v).len = m.len := rfl
@[simp] theorem Memory.grow_len (m : Memory) (n : Nat) : (m.grow n).len = m.len + n := rfl
@[simp] theorem Memory.grow_cells (m : Memory) (n : Nat) : (m.grow n).cells = m.cells := rfl
@[simp] theorem Memory.zeros_len (n : Nat) : (Memory.zeros n).len = n := rfl
@[simp] theorem Memory.zeros_cells (n : Nat) : (Memory.zeros n).cells = [] := rfl

theorem Memory.lookup_write_self (m : Memory) (a : Nat) (v : Byte) :
    (assocLookup (m.write a v).cells a).getD unwrittenCell = v := by
  simp only [Memory.write]
  split
  · next h => simp [h]
  · simp

theorem Memory.lookup_write_of_ne (m : Memory) {a b : Nat} (v : Byte) (h : b ≠ a) :
    assocLookup (m.write a v).cells b = assocLookup m.cells b := by
  simp only [Memory.write]
  split
  · exact assocLookup_erase_of_ne _ h
  · exact assocLookup_insert_of_ne _ _ h

/-- A read of the written cell gives the value written (20_memory.md R41). -/
theorem Memory.read_write_self (m : Memory) {a : Nat} (v : Byte) (h : a < m.len) : (m.write a v).read a = some v :=
  (Memory.read_eq_some _ _ _).2 ⟨h, Memory.lookup_write_self m a v⟩

/-- Every other cell keeps its value. -/
theorem Memory.read_write_of_ne (m : Memory) {a b : Nat} (v : Byte) (h : b ≠ a) : (m.write a v).read b = m.read b := by
  simp [Memory.read, Memory.lookup_write_of_ne m v h]

/-- Growth keeps every existing cell. -/
theorem Memory.read_grow_of_lt (m : Memory) {a : Nat} (n : Nat) (h : a < m.len) : (m.grow n).read a = m.read a := by
  simp [Memory.read, h, Nat.lt_of_lt_of_le h (Nat.le_add_right _ _)]

theorem Memory.lt_of_read {m : Memory} {a : Nat} {v : Byte} (h : m.read a = some v) : a < m.len :=
  ((Memory.read_eq_some _ _ _).1 h).1

theorem Memory.wf_iff (m : Memory) :
    m.wf = true ↔ keysRising m.cells = true ∧ ∀ e ∈ m.cells, e.1 < m.len ∧ e.2 ≠ unwrittenCell := by
  simp [Memory.wf]

/-- A store to an existing cell keeps the canonical form. -/
theorem Memory.wf_write (m : Memory) (a : Nat) (v : Byte) (h : m.wf = true) (ha : a < m.len) :
    (m.write a v).wf = true := by
  rw [Memory.wf_iff] at h ⊢
  obtain ⟨h1, h2⟩ := h
  by_cases hv : v = unwrittenCell
  · simp only [Memory.write, hv, if_true]
    exact ⟨keysRising_erase _ _ h1, fun e he => h2 e (List.mem_of_mem_filter he)⟩
  · simp only [Memory.write, hv, if_false]
    refine ⟨keysRising_insert _ _ _ h1, fun e he => ?_⟩
    rcases mem_assocInsert _ _ _ _ he with rfl | he
    · exact ⟨ha, hv⟩
    · exact h2 e he

/-- Growth keeps the canonical form. -/
theorem Memory.wf_grow (m : Memory) (n : Nat) (h : m.wf = true) : (m.grow n).wf = true := by
  rw [Memory.wf_iff] at h ⊢
  exact ⟨h.1, fun e he => ⟨Nat.lt_of_lt_of_le (h.2 e he).1 (Nat.le_add_right _ _), (h.2 e he).2⟩⟩

/-- A fresh tape has the canonical form. -/
theorem Memory.wf_zeros (n : Nat) : (Memory.zeros n).wf = true := rfl

/-- The tape before run start has it. -/
theorem Memory.wf_absent : Memory.absent.wf = true := rfl

/-- The memory of the machine right after reset has the canonical form. -/
theorem State.reset_tape_wf : State.reset.tape.wf = true := rfl

/-- Recording a pair: what the table gives afterwards. -/
theorem JumpTable.lookup_pair (jt : JumpTable) (j i a : Nat) :
    (jt.pair j i).lookup a = if a = i then some j else if a = j then some i else jt.lookup a := by
  simp only [JumpTable.pair, JumpTable.lookup, assocLookup_insert]

/-- Recording a pair keeps the canonical form. -/
theorem JumpTable.keysRising_pair (jt : JumpTable) (j i : Nat) (h : keysRising jt = true) :
    keysRising (jt.pair j i) = true :=
  keysRising_insert _ _ _ (keysRising_insert _ _ _ h)

end Sys2Proof.Machine
end

