-- ==== Sys2Proof/Laws/Ops.lean ====
section
/-! SUPPORT. One lemma for each shared operation that says once everything it can do. -/

namespace Sys2Proof.Machine

/-- Using the current cell: it exists and the continuation runs on it, or the model faults. -/
theorem State.withCurrentCell_cases (s : State) (k : Byte → Host.Outcome State Fault Refusal) :
    (∃ v, s.tape.read s.cur = some v ∧ s.withCurrentCell k = k v) ∨
    (s.tape.read s.cur = none ∧ s.withCurrentCell k = .fault (.noCell s.cur)) := by
  unfold State.withCurrentCell State.currentCell
  cases h : s.tape.read s.cur with
  | none => exact .inr ⟨rfl, by simp [h]⟩
  | some v => exact .inl ⟨v, rfl, by simp [h]⟩

theorem State.withCurrentCell_of_read (s : State) (k : Byte → Host.Outcome State Fault Refusal) {v : Byte}
    (h : s.tape.read s.cur = some v) : s.withCurrentCell k = k v := by
  simp [State.withCurrentCell, State.currentCell, h]

/-- Storing to the current cell: the cell is written and the instruction ends, or the model faults. -/
theorem State.storeCell_cases (s : State) (v : Byte) :
    (s.cur < s.tape.len ∧ s.storeCell v = .next (s.setTape (s.tape.write s.cur v)).advance) ∨
    (s.tape.len ≤ s.cur ∧ s.storeCell v = .fault (.noCell s.cur)) := by
  unfold State.storeCell
  by_cases h : s.cur < s.tape.len
  · exact .inl ⟨h, by simp [h]⟩
  · exact .inr ⟨Nat.le_of_not_lt h, by simp [h]⟩

theorem State.storeCell_of_lt (s : State) (v : Byte) (h : s.cur < s.tape.len) :
    s.storeCell v = .next (s.setTape (s.tape.write s.cur v)).advance := by
  simp [State.storeCell, h]

@[simp] theorem State.growIfAtEnd_cfg (s : State) : s.growIfAtEnd.cfg = s.cfg := by
  unfold State.growIfAtEnd; split <;> rfl
@[simp] theorem State.growIfAtEnd_src (s : State) : s.growIfAtEnd.src = s.src := by
  unfold State.growIfAtEnd; split <;> rfl
@[simp] theorem State.growIfAtEnd_bstk (s : State) : s.growIfAtEnd.bstk = s.bstk := by
  unfold State.growIfAtEnd; split <;> rfl
@[simp] theorem State.growIfAtEnd_prog (s : State) : s.growIfAtEnd.prog = s.prog := by
  unfold State.growIfAtEnd; split <;> rfl
@[simp] theorem State.growIfAtEnd_jt (s : State) : s.growIfAtEnd.jt = s.jt := by
  unfold State.growIfAtEnd; split <;> rfl
@[simp] theorem State.growIfAtEnd_pc (s : State) : s.growIfAtEnd.pc = s.pc := by
  unfold State.growIfAtEnd; split <;> rfl
@[simp] theorem State.growIfAtEnd_cur (s : State) : s.growIfAtEnd.cur = s.cur := by
  unfold State.growIfAtEnd; split <;> rfl
@[simp] theorem State.growIfAtEnd_phase (s : State) : s.growIfAtEnd.phase = s.phase := by
  unfold State.growIfAtEnd; split <;> rfl
@[simp] theorem State.growIfAtEnd_env (s : State) : s.growIfAtEnd.env = s.env := by
  unfold State.growIfAtEnd; split <;> rfl

/-- Growth: nothing, or a block at the end when the cursor stands there. -/
theorem State.growIfAtEnd_len (s : State) :
    s.growIfAtEnd.tape.len = if s.cur = s.tape.len then s.tape.len + s.growthSize else s.tape.len := by
  unfold State.growIfAtEnd; split <;> rfl

@[simp] theorem State.growIfAtEnd_cells (s : State) : s.growIfAtEnd.tape.cells = s.tape.cells := by
  unfold State.growIfAtEnd; split <;> rfl

theorem State.growIfAtEnd_read_of_lt (s : State) {a : Nat} (h : a < s.tape.len) :
    s.growIfAtEnd.tape.read a = s.tape.read a := by
  unfold State.growIfAtEnd
  split
  · exact Memory.read_grow_of_lt _ _ h
  · rfl

/-- One input transaction: a byte from the front, closed, or no answer yet. -/
theorem Env.inRead_cases (e : Env) :
    (∃ b rest, e.inp = b :: rest ∧ e.inRead = .byte b { e with inp := rest }) ∨
    (e.inp = [] ∧ e.inClosed = true ∧ e.inRead = .closed) ∨
    (e.inp = [] ∧ e.inClosed = false ∧ e.inRead = .pending) := by
  unfold Env.inRead
  cases h : e.inp with
  | cons b rest => exact .inl ⟨b, rest, rfl, rfl⟩
  | nil => cases hc : e.inClosed <;> simp

/-- One output transaction: accepted and logged, failed, or no answer yet. -/
theorem Env.outWrite_cases (e : Env) (b : Byte) :
    (∃ ans, e.outWrite b = .accepted { e with outAns := ans, out := e.out ++ [b] }) ∨
    (∃ ans, e.outWrite b = .failed { e with outAns := ans }) ∨
    (e.outAns = [] ∧ e.outRest = none ∧ e.outWrite b = .pending) := by
  obtain ⟨inp, cl, o, op, ans, rest, rst⟩ := e
  cases ans with
  | cons a ans => cases a <;> simp [Env.outWrite, Env.nextAnswer]
  | nil =>
    cases rest with
    | none => simp [Env.outWrite, Env.nextAnswer]
    | some a => cases a <;> simp [Env.outWrite, Env.nextAnswer]

/-- One iteration of the filter: the program as it was, one opcode longer, or the store is full. -/
theorem filterByte_cases (cap : Option Nat) (prog : List Instr) (b : Byte) :
    (decodeByte b = .commentary ∧ filterByte cap prog b = .ok prog) ∨
    (∃ i, decodeByte b = .opcode i ∧ progFull cap prog.length = false ∧ filterByte cap prog b = .ok (prog ++ [i])) ∨
    (∃ i, decodeByte b = .opcode i ∧ progFull cap prog.length = true ∧
      filterByte cap prog b = .error .programStoreExhausted) := by
  unfold filterByte
  cases h : decodeByte b with
  | commentary => exact .inl ⟨rfl, rfl⟩
  | opcode i => cases hf : progFull cap prog.length <;> simp

/-- One iteration of the builder: push, pair, skip, or an unbalanced closer. -/
theorem scanOpcode_cases (i : Nat) (op : Instr) (b : Builder) :
    (op = .jumpIfZero ∧ scanOpcode i op b = .ok { b with bstk := i :: b.bstk }) ∨
    (op = .jumpIfNonzero ∧ b.bstk = [] ∧ scanOpcode i op b = .error (.unbalancedBracket i)) ∨
    (∃ j rest, op = .jumpIfNonzero ∧ b.bstk = j :: rest ∧
      scanOpcode i op b = .ok { jt := b.jt.pair j i, bstk := rest }) ∨
    (op ≠ .jumpIfZero ∧ op ≠ .jumpIfNonzero ∧ scanOpcode i op b = .ok b) := by
  cases op <;> simp [scanOpcode]
  cases h : b.bstk <;> simp

/-- The end of the scan: the table, or the last pending opener rejected. -/
theorem finishScan_cases (strict : Bool) (b : Builder) :
    ((b.bstk = [] ∨ strict = false) ∧ finishScan strict b = .ok b.jt) ∨
    (∃ top rest, b.bstk = top :: rest ∧ strict = true ∧ finishScan strict b = .error (.unbalancedBracket top)) := by
  unfold finishScan
  cases b.bstk <;> cases strict <;> simp

end Sys2Proof.Machine
end

