-- ==== Sys2Proof/Laws/Builder.lean ====
section
/-! SUPPORT. What the Jump Table Builder keeps true while it scans (30_encoding.md R57, R61). -/

namespace Sys2Proof.Machine

/-- The scan begins with the invariant (30_encoding.md R57). -/
theorem builderInv_start (p) : BuilderInv p 0 [] [] := by
  refine ⟨⟨rfl, ?_, ?_, ?_, ?_, ?_, ?_⟩, List.Pairwise.nil, ?_⟩ <;> simp [JumpTable.lookup, assocLookup]

/-- The six other opcodes leave the builder as it is. -/
theorem builderInv_skip {p n jt bstk} (h : BuilderInv p n jt bstk) (h1 : p[n]? ≠ some .jumpIfZero) (h2 : p[n]? ≠ some .jumpIfNonzero) :
   BuilderInv p (n+1) jt bstk := by
  have hlt : ∀ i, i < n + 1 → i = n ∨ i < n := by omega
  refine ⟨⟨h.table.canonical, fun i j hj => ?_, h.table.symm, h.table.directed, fun i hi hp => ?_, h.table.nested, fun k hk hp hn => ?_⟩, h.falling, fun k => ?_⟩
  · have := h.table.inRange i j hj; omega
  · rcases hlt i hi with rfl | hi
    · exact absurd hp h2
    · exact h.table.closers i hi hp
  · rcases hlt k hk with rfl | hk
    · exact absurd hp h1
    · exact h.table.unspanned k hk hp hn
  · rw [h.pending]
    constructor
    · rintro ⟨a, b, c⟩; exact ⟨by omega, b, c⟩
    · rintro ⟨a, b, c⟩
      rcases hlt k a with rfl | hk
      · exact absurd b h1
      · exact ⟨hk, b, c⟩

/-- No index the scan has not reached has an entry. -/
theorem BuilderInv.lookup_of_le {p n jt bstk} (h : BuilderInv p n jt bstk) (k) (hk : n ≤ k) : jt.lookup k = none := by
  cases hl : jt.lookup k with
  | none => rfl
  | some j => have := h.table.inRange _ _ hl; omega

/-- An opener is pushed. -/
theorem builderInv_push {p n jt bstk} (h : BuilderInv p n jt bstk) (h1 : p[n]? = some .jumpIfZero) :
   BuilderInv p (n+1) jt (n :: bstk) := by
  have hlt : ∀ i, i < n + 1 → i = n ∨ i < n := by omega
  refine ⟨⟨h.table.canonical, fun i j hj => ?_, h.table.symm, h.table.directed, fun i hi hp => ?_, h.table.nested, fun k hk hp hn i j hj hij => ?_⟩, ?_, fun k => ?_⟩
  · have := h.table.inRange i j hj; omega
  · rcases hlt i hi with rfl | hi
    · rw [h1] at hp; cases hp
    · exact h.table.closers i hi hp
  · rcases hlt k hk with rfl | hk
    · have := h.table.inRange i j hj; omega
    · exact h.table.unspanned k hk hp hn i j hj hij
  · refine List.pairwise_cons.2 ⟨fun a ha => ?_, h.falling⟩
    have := (h.pending a).1 ha; omega
  · rw [List.mem_cons, h.pending]
    constructor
    · rintro (rfl | ⟨a, b, c⟩)
      · exact ⟨by omega, h1, BuilderInv.lookup_of_le h _ (Nat.le_refl _)⟩
      · exact ⟨by omega, b, c⟩
    · rintro ⟨a, b, c⟩
      rcases hlt k a with rfl | hk
      · exact .inl rfl
      · exact .inr ⟨hk, b, c⟩

/-- A closer is paired with the top of the stack (30_encoding.md R57). -/
theorem builderInv_pair {p n jt j rest} (h : BuilderInv p n jt (j :: rest)) (h1 : p[n]? = some .jumpIfNonzero) :
   BuilderInv p (n+1) (jt.pair j n) rest := by
  have hlt : ∀ i, i < n + 1 → i = n ∨ i < n := by omega
  obtain ⟨hj, hpj, hnj⟩ := (h.pending j).1 (by simp)
  have hfall := List.pairwise_cons.1 h.falling
  have hnn := BuilderInv.lookup_of_le h n (Nat.le_refl _)
  have look : ∀ a b, (jt.pair j n).lookup a = some b ↔ (a = n ∧ b = j) ∨ (a = j ∧ b = n) ∨ jt.lookup a = some b := by
    intro a b
    rw [JumpTable.lookup_pair]
    split
    · next ha => subst ha; rw [hnn]; simp; constructor
                 · intro hh; exact .inl hh.symm
                 · rintro (hh | ⟨hh, _⟩)
                   · exact hh.symm
                   · omega
    · next ha =>
      split
      · next hb => subst hb; rw [hnj]; simp; constructor
                   · intro hh; exact .inr hh.symm
                   · rintro (⟨hh, _⟩ | hh)
                     · exact absurd hh ha
                     · exact hh.symm
      · next hb => constructor
                   · intro hh; exact .inr (.inr hh)
                   · rintro (⟨hh, _⟩ | ⟨hh, _⟩ | hh)
                     · exact absurd hh ha
                     · exact absurd hh hb
                     · exact hh
  have nolook : ∀ a, (jt.pair j n).lookup a = none ↔ a ≠ n ∧ a ≠ j ∧ jt.lookup a = none := by
    intro a
    rw [JumpTable.lookup_pair]
    split
    · simp [*]
    · split <;> simp [*]
  refine ⟨⟨JumpTable.keysRising_pair _ _ _ h.table.canonical, fun a b hab => ?_, fun a b hab => ?_, fun a b hab => ?_, fun i hi hp => ?_, fun a b a' b' hab hab' l1 l2 l3 => ?_, fun k hk hp hn i l hl hil => ?_⟩, hfall.2, fun k => ?_⟩
  · rcases (look _ _).1 hab with ⟨rfl, rfl⟩ | ⟨rfl, rfl⟩ | hab
    · omega
    · omega
    · have := h.table.inRange _ _ hab; omega
  · rw [look]
    rcases (look _ _).1 hab with ⟨rfl, rfl⟩ | ⟨rfl, rfl⟩ | hab
    · exact .inr (.inl ⟨rfl, rfl⟩)
    · exact .inl ⟨rfl, rfl⟩
    · exact .inr (.inr (h.table.symm _ _ hab))
  · rcases (look _ _).1 hab with ⟨rfl, rfl⟩ | ⟨rfl, rfl⟩ | hab
    · exact .inr ⟨h1, hpj, hj⟩
    · exact .inl ⟨hpj, h1, hj⟩
    · exact h.table.directed _ _ hab
  · rcases hlt i hi with rfl | hi
    · exact ⟨j, (look _ _).2 (.inl ⟨rfl, rfl⟩)⟩
    · obtain ⟨b, hb⟩ := h.table.closers i hi hp
      exact ⟨b, (look _ _).2 (.inr (.inr hb))⟩
  · rcases (look _ _).1 hab with ⟨rfl, rfl⟩ | ⟨rfl, rfl⟩ | hc
    · omega
    · rcases (look _ _).1 hab' with ⟨rfl, rfl⟩ | ⟨rfl, rfl⟩ | hc'
      · omega
      · omega
      · have := h.table.inRange _ _ hc'; omega
    · rcases (look _ _).1 hab' with ⟨rfl, rfl⟩ | ⟨rfl, rfl⟩ | hc'
      · omega
      · have := h.table.unspanned _ hj hpj hnj _ _ hc l1
        have hne : b ≠ a' := by
          rintro rfl
          have := h.table.symm _ _ hc; rw [hnj] at this; cases this
        omega
      · exact h.table.nested _ _ _ _ hc hc' l1 l2 l3
  · obtain ⟨n1, n2, n3⟩ := (nolook k).1 hn
    have hk' : k < n := by omega
    rcases (look _ _).1 hl with ⟨rfl, rfl⟩ | ⟨rfl, rfl⟩ | hl
    · omega
    · have hm := (h.pending k).2 ⟨hk', hp, n3⟩
      rcases List.mem_cons.1 hm with rfl | hm
      · omega
      · have := hfall.1 k hm; omega
    · exact h.table.unspanned k hk' hp n3 i l hl hil
  · rw [nolook]
    constructor
    · intro hm
      obtain ⟨a, b, c⟩ := (h.pending k).1 (by simp [hm])
      have := hfall.1 k hm
      exact ⟨by omega, b, by omega, by omega, c⟩
    · rintro ⟨a, b, c, d, e⟩
      have hm := (h.pending k).2 ⟨by omega, b, e⟩
      rcases List.mem_cons.1 hm with rfl | hm
      · exact absurd rfl d
      · exact hm

/-- One iteration of the builder keeps the invariant. -/
theorem builderInv_scanOpcode {p n op} {b b' : Builder} (h : BuilderInv p n b.jt b.bstk) (ho : p[n]? = some op) (hs : scanOpcode n op b = .ok b') :
   BuilderInv p (n+1) b'.jt b'.bstk := by
  rcases scanOpcode_cases n op b with ⟨rfl, he⟩ | ⟨rfl, hb, he⟩ | ⟨j, rest, rfl, hb, he⟩ | ⟨h1, h2, he⟩ <;> rw [he] at hs <;> cases hs
  · exact builderInv_push h ho
  · rw [hb] at h; exact builderInv_pair h ho
  · exact builderInv_skip h (by simp [ho, h1]) (by simp [ho, h2])

/-- The head of a dropped list is the element at that index. -/
theorem getElem_drop_of_cons {p : List Instr} {n op rest} (h : p.drop n = op :: rest) : p[n]? = some op ∧ p.drop (n+1) = rest := by
  constructor
  · rw [← List.head?_drop, h]; rfl
  · rw [← List.drop_drop, h]; rfl

/-- The whole scan keeps the invariant. -/
theorem builderInv_scanFrom (p : List Instr) : ∀ (l : List Instr) n (b b' : Builder), p.drop n = l → n ≤ p.length → BuilderInv p n b.jt b.bstk →
   scanFrom n b l = .ok b' → BuilderInv p p.length b'.jt b'.bstk := by
  intro l
  induction l with
  | nil => intro n b b' hd hl h hs; cases hs
           have : p.length ≤ n := by simpa using hd
           have : n = p.length := by omega
           subst this; exact h
  | cons op l ih =>
    intro n b b' hd hl h hs
    obtain ⟨h1, h2⟩ := getElem_drop_of_cons hd
    have hlt : n < p.length := by
      by_contra hh; simp [List.getElem?_eq_none (Nat.le_of_not_lt hh)] at h1
    simp only [scanFrom] at hs
    split at hs
    · next b1 hb1 => exact ih (n+1) b1 b' h2 hlt (builderInv_scanOpcode h h1 hb1) hs
    · cases hs

/-- Counting pending openers tells whether the scan succeeds and how many stay on the stack. -/
theorem scanFrom_of_pending (l : List Instr) : ∀ n (b : Builder), 
   (∀ d, Program.pending l b.bstk.length = some d → ∃ b', scanFrom n b l = .ok b' ∧ b'.bstk.length = d) ∧
   (Program.pending l b.bstk.length = none → ∃ i, scanFrom n b l = .error (.unbalancedBracket i)) := by
  induction l with
  | nil => intro n b; simp [Program.pending, scanFrom]
  | cons op l ih =>
    intro n b
    rcases scanOpcode_cases n op b with ⟨rfl, he⟩ | ⟨rfl, hb, he⟩ | ⟨j, rest, rfl, hb, he⟩ | ⟨h1, h2, he⟩
    · have := ih (n+1) { b with bstk := n :: b.bstk }
      simpa [Program.pending, scanFrom, he] using this
    · simp [hb, Program.pending, scanFrom, he]
    · have := ih (n+1) { jt := b.jt.pair j n, bstk := rest }
      simpa [hb, Program.pending, scanFrom, he] using this
    · have := ih (n+1) b
      have hp : Program.pending (op :: l) b.bstk.length = Program.pending l b.bstk.length := by
        cases op <;> simp_all [Program.pending]
      rw [hp]
      simpa [scanFrom, he] using this
/-- A scan goes on where a shorter one ended. -/
theorem scanFrom_append (l l' : List Instr) : ∀ n b b', scanFrom n b l = .ok b' → scanFrom n b (l ++ l') = scanFrom (n + l.length) b' l' := by
  induction l with
  | nil => intro n b b' h; cases h; simp
  | cons op l ih =>
    intro n b b' h
    simp only [scanFrom, List.cons_append] at h ⊢
    split at h
    · next b1 hb1 => rw [ih _ _ _ h]; simp [Nat.add_assoc, Nat.add_comm 1]
    · cases h

/-- The table of a built program has the properties of 30_encoding.md R61. -/
theorem tableInv_of_scan {p : List Instr} {b : Builder} (h : scanFrom 0 { jt := [], bstk := [] } p = .ok b) :
    TableInv p p.length b.jt :=
  (builderInv_scanFrom p p 0 _ b rfl (Nat.zero_le _) (builderInv_start p) h).table

end Sys2Proof.Machine
end

