-- ==== Sys2Proof/Laws/Exec.lean ====
section
/-! SUPPORT. One inversion lemma per instruction and for the step: if it answers a next state, one of these cases
holds. -/

namespace Sys2Proof.Machine

theorem execMoveRight_next (s t : State) :
    execMoveRight s = .next t ↔
      (s.atTapeCap = true ∧ t = s.raise .tapeExhausted) ∨
      (s.atTapeCap = false ∧ t = ((s.setCur (s.cur + 1)).growIfAtEnd).advance) := by
  unfold execMoveRight
  cases s.atTapeCap <;> simp [eq_comm]

theorem execMoveLeft_next (s t : State) :
    execMoveLeft s = .next t ↔ t = { s with cur := s.cur - 1, pc := s.pc + 1 } := by
  unfold execMoveLeft
  split
  · simp [State.advance, State.setPc, State.setCur, eq_comm]
  · next h =>
    have h0 : s.cur = 0 := by omega
    obtain ⟨⟩ := s
    simp_all [State.advance, State.setPc, eq_comm]

theorem withCurrentCell_next (s t : State) (k : Byte → Host.Outcome State Fault Refusal) :
    s.withCurrentCell k = .next t ↔ ∃ v, s.tape.read s.cur = some v ∧ k v = .next t := by
  rcases s.withCurrentCell_cases k with ⟨v, hv, h⟩ | ⟨hv, h⟩ <;> simp [hv, h]

theorem storeCell_next (s t : State) (v : Byte) :
    s.storeCell v = .next t ↔ s.cur < s.tape.len ∧ t = (s.setTape (s.tape.write s.cur v)).advance := by
  rcases s.storeCell_cases v with ⟨hl, h⟩ | ⟨hl, h⟩
  · simp [h, hl, eq_comm]
  · simp [h, Nat.not_lt.2 hl]

theorem execIncrement_next (s t : State) :
    execIncrement s = .next t ↔ ∃ v, s.tape.read s.cur = some v ∧ s.cur < s.tape.len ∧
      t = (s.setTape (s.tape.write s.cur (cellIncremented v))).advance := by
  simp [execIncrement, withCurrentCell_next, storeCell_next]

theorem execDecrement_next (s t : State) :
    execDecrement s = .next t ↔ ∃ v, s.tape.read s.cur = some v ∧ s.cur < s.tape.len ∧
      t = (s.setTape (s.tape.write s.cur (cellDecremented v))).advance := by
  simp [execDecrement, withCurrentCell_next, storeCell_next]

theorem execOutput_next (s t : State) (h : execOutput s = .next t) :
    ∃ v, s.tape.read s.cur = some v ∧
      ((∃ ans, t = (s.setEnv { s.env with outAns := ans, out := s.env.out ++ [v] }).advance) ∨
       (∃ ans, t = (s.setEnv { s.env with outAns := ans }).raise .outputFailure) ∨
       (s.env.outAns = [] ∧ s.env.outRest = none ∧ t = s)) := by
  obtain ⟨v, hv, h⟩ := (withCurrentCell_next _ _ _).1 h
  refine ⟨v, hv, ?_⟩
  rcases s.env.outWrite_cases v with ⟨ans, he⟩ | ⟨ans, he⟩ | ⟨h1, h2, he⟩ <;> rw [he] at h <;> cases h
  · exact .inl ⟨ans, rfl⟩
  · exact .inr (.inl ⟨ans, rfl⟩)
  · exact .inr (.inr ⟨h1, h2, rfl⟩)

theorem execInput_next (s t : State) (h : execInput s = .next t) :
    (∃ b rest, s.env.inp = b :: rest ∧ s.cur < s.tape.len ∧
      t = ((s.setEnv { s.env with inp := rest }).setTape (s.tape.write s.cur b)).advance) ∨
    (s.env.inp = [] ∧ s.env.inClosed = true ∧ t = s.raise .inputExhausted) ∨
    (s.env.inp = [] ∧ s.env.inClosed = false ∧ t = s) := by
  unfold execInput at h
  rcases s.env.inRead_cases with ⟨b, rest, hi, he⟩ | ⟨h1, h2, he⟩ | ⟨h1, h2, he⟩ <;> simp only [he] at h
  · obtain ⟨hl, ht⟩ := (storeCell_next _ _ _).1 h
    exact .inl ⟨b, rest, hi, hl, ht⟩
  · cases h; exact .inr (.inl ⟨h1, h2, rfl⟩)
  · cases h; exact .inr (.inr ⟨h1, h2, rfl⟩)

theorem execJumpIfZero_next (s t : State) (h : execJumpIfZero s = .next t) :
    ∃ v, s.tape.read s.cur = some v ∧
      ((v ≠ 0#8 ∧ t = s.advance) ∨
       (v = 0#8 ∧ ∃ j, s.jt.lookup s.pc = some j ∧ t = (s.setPc j).advance) ∨
       (v = 0#8 ∧ s.jt.lookup s.pc = none ∧ t = s.raise (.jumpTargetMissing s.pc))) := by
  obtain ⟨v, hv, h⟩ := (withCurrentCell_next _ _ _).1 h
  refine ⟨v, hv, ?_⟩
  by_cases h0 : v = 0#8
  · subst h0
    simp only [openerTaken, beq_self_eq_true, if_true, State.pairedIndex] at h
    cases hj : s.jt.lookup s.pc with
    | none => rw [hj] at h; cases h; exact .inr (.inr ⟨rfl, rfl, rfl⟩)
    | some j => rw [hj] at h; cases h; exact .inr (.inl ⟨rfl, j, rfl, rfl⟩)
  · have hb : openerTaken v = false := by simpa [openerTaken] using h0
    simp only [hb, Bool.false_eq_true, if_false] at h
    cases h; exact .inl ⟨h0, rfl⟩

theorem execJumpIfNonzero_next (s t : State) (h : execJumpIfNonzero s = .next t) :
    ∃ v, s.tape.read s.cur = some v ∧
      ((v = 0#8 ∧ t = s.advance) ∨
       (v ≠ 0#8 ∧ ∃ j, s.jt.lookup s.pc = some j ∧ t = (s.setPc j).advance)) := by
  obtain ⟨v, hv, h⟩ := (withCurrentCell_next _ _ _).1 h
  refine ⟨v, hv, ?_⟩
  by_cases h0 : v = 0#8
  · have hb : closerTaken v = false := by simp [closerTaken, h0]
    simp only [hb, Bool.false_eq_true, if_false] at h
    cases h; exact .inl ⟨h0, rfl⟩
  · have hb : closerTaken v = true := by simpa [closerTaken] using h0
    simp only [hb, if_true, State.pairedIndex] at h
    cases hj : s.jt.lookup s.pc with
    | none => rw [hj] at h; cases h
    | some j => rw [hj] at h; cases h; exact .inr ⟨h0, j, rfl, rfl⟩

/-- Everything a step can be. -/
theorem step_cases (s : State) :
    (∃ r, s.env.rst = some r ∧ step s = .next (s.doReset r)) ∨
    (s.env.rst = none ∧ ∃ st, s.phase = .loading st ∧ step s = .next (s.loadStep st)) ∨
    (s.env.rst = none ∧ s.phase = .running ∧ ∃ i, s.prog[s.pc]? = some i ∧ step s = exec i s) ∨
    (s.env.rst = none ∧ s.phase = .running ∧ s.prog.length ≤ s.pc ∧ step s = .next s.halt) ∨
    (s.env.rst = none ∧ s.phase = .halted ∧ step s = .next s) ∨
    (s.env.rst = none ∧ ∃ c, s.phase = .failed c ∧ step s = .next s) := by
  unfold step engineStep State.fetch
  cases hr : s.env.rst with
  | some r => exact .inl ⟨r, rfl, rfl⟩
  | none =>
    cases hp : s.phase with
    | loading st => exact .inr (.inl ⟨rfl, st, rfl, rfl⟩)
    | halted => simp
    | failed c => simp
    | running =>
      cases hf : s.prog[s.pc]? with
      | some i => exact .inr (.inr (.inl ⟨rfl, rfl, i, rfl, rfl⟩))
      | none => exact .inr (.inr (.inr (.inl ⟨rfl, rfl, by simpa using hf, rfl⟩)))

end Sys2Proof.Machine
end

