-- ==== Sys2Proof/Laws/Claims.lean ====
section
/-! SUPPORT. What claims may compare of two states (60_exceptions.md R107), and how steps respect it. -/

namespace Sys2Proof.Machine

theorem State.SameForClaims.refl (s : State) : s.SameForClaims s :=
  ⟨rfl, rfl, rfl, rfl, rfl, rfl, rfl, fun _ => ⟨rfl, rfl, rfl⟩⟩

/-- Outside Failed the comparison is equality. -/
theorem State.SameForClaims.eq_of_not_failed {s t : State} (h : s.SameForClaims t)
    (hp : ∀ c, t.phase ≠ .failed c) : s = t := by
  obtain ⟨h1, h2, h3, h4, h5, h6, h7, h8⟩ := h
  obtain ⟨h9, h10, h11⟩ := h8 hp
  obtain ⟨⟩ := s
  obtain ⟨⟩ := t
  simp_all

theorem State.SameForClaims.status_eq {s t : State} (h : s.SameForClaims t) : s.status = t.status := by
  simp [State.status, h.phase]

theorem State.SameForClaims.result_eq {s t : State} (h : s.SameForClaims t) : s.result = t.result := by
  simp [State.result, State.status, h.phase, h.env]

/-- A step keeps the comparison: nothing reads what a failed state leaves unspecified. -/
theorem step_sameForClaims {s t u : State} (h : s.SameForClaims t) (hu : step t = .next u) :
    ∃ v, step s = .next v ∧ v.SameForClaims u := by
  by_cases hp : ∀ c, t.phase ≠ .failed c
  · exact ⟨u, h.eq_of_not_failed hp ▸ hu, .refl u⟩
  · simp only [not_forall, not_not] at hp
    obtain ⟨c, hp⟩ := hp
    have hs : s.phase = .failed c := h.phase.trans hp
    cases hr : t.env.rst with
    | some r =>
      have hr' : s.env.rst = some r := by rw [h.env, hr]
      simp only [step, hr] at hu
      cases hu
      exact ⟨s.doReset r, by simp [step, hr'], by simp only [State.doReset, h.env]; exact .refl _⟩
    | none =>
      have hr' : s.env.rst = none := by rw [h.env, hr]
      simp only [step, hr, hp] at hu
      cases hu
      exact ⟨s, by simp [step, hr', hs], h⟩

/-- Only a run in progress can fault. -/
theorem step_fault_running {t : State} {r : Fault} (h : step t = .fault r) : t.phase = .running := by
  rcases step_cases t with ⟨_, _, hs⟩ | ⟨_, _, _, hs⟩ | ⟨_, hp, _⟩ | ⟨_, hp, _⟩ | ⟨_, _, hs⟩ | ⟨_, _, _, hs⟩
  case inr.inr.inl => exact hp
  case inr.inr.inr.inl => exact hp
  all_goals rw [hs] at h; cases h

/-- Runs keep the comparison. -/
theorem runSteps_sameForClaims (n : Nat) {s t : State} (h : s.SameForClaims t) :
    (∀ u, runSteps n t = .next u → ∃ v, runSteps n s = .next v ∧ v.SameForClaims u) ∧
    (∀ r, runSteps n t = .fault r → runSteps n s = .fault r) := by
  induction n generalizing s t with
  | zero => exact ⟨fun u hu => by cases hu; exact ⟨s, rfl, h⟩, fun r hr => by cases hr⟩
  | succ n ih =>
    simp only [runSteps]
    cases ht : step t with
    | next t' =>
      obtain ⟨s', hs, h'⟩ := step_sameForClaims h ht
      simpa [hs] using ih h'
    | fault r =>
      obtain rfl := h.eq_of_not_failed fun c hc => by simp [step_fault_running ht] at hc
      simp [ht]
    | refused r => simp

end Sys2Proof.Machine
end

