-- ==== Sys2Proof/Laws/PerInstr.lean ====
section
/-! SUPPORT. Laws stated for every instruction, one lemma per constructor. -/

namespace Sys2Proof.Laws.DecodeExact

/-- Exactly one byte selects the instruction: the one it is encoded as (30_encoding.md R51, R56). -/
def Statement (i : Instr) : Prop := ∀ b : Byte, decodeByte b = .opcode i ↔ b = encodeByte i

theorem moveRight : Statement .moveRight := by unfold Statement; decide
theorem moveLeft : Statement .moveLeft := by unfold Statement; decide
theorem increment : Statement .increment := by unfold Statement; decide
theorem decrement : Statement .decrement := by unfold Statement; decide
theorem output : Statement .output := by unfold Statement; decide
theorem input : Statement .input := by unfold Statement; decide
theorem jumpIfZero : Statement .jumpIfZero := by unfold Statement; decide
theorem jumpIfNonzero : Statement .jumpIfNonzero := by unfold Statement; decide

end Sys2Proof.Laws.DecodeExact
end

