-- ==== Sys2Proof/Tests/Slice0.lean ====
section
/-! SUPPORT. Our own tests: refused ill-formed terms, words written out from 30_encoding.md R51, one step at a time
with expected values from 95_test_vectors.md, and a witness for the hypotheses of each obligation that has some. -/

namespace Sys2Proof.Tests

open Sys2Proof Sys2Proof.Machine

/-- The run-start state with a program and its table, at index `k`, with given non-zero cells and cursor. -/
def st (p : List Instr) (k : Nat) (cells : List Host.Cell := []) (cur : Nat := 0) : State :=
  { State.reset.runStart with
    prog := p, jt := (buildTable false p).toOption.getD [], pc := k, cur := cur, tape := { cells := cells, len := 10 } }

/-- The next state, if there is one. -/
def after (o : Host.Outcome State Fault Refusal) : Option State :=
  match o with
  | .next t => some t
  | .fault _ => none
  | .refused _ => none

/-- The fault, if there is one. -/
def faultOf (o : Host.Outcome State Fault Refusal) : Option Fault :=
  match o with
  | .next _ => none
  | .fault r => some r
  | .refused _ => none

def withInput (s : State) (bytes : List Byte) (closed : Bool) : State :=
  s.setEnv { s.env with inp := bytes, inClosed := closed }

def withAnswers (s : State) (ans : List OutAnswer) (rest : Option OutAnswer) : State :=
  s.setEnv { s.env with outAns := ans, outRest := rest }

def withCfg (s : State) (init : Nat) (cap : Option Nat) : State :=
  { s with cfg := { s.cfg with tapeInit := init, tapeCap := cap } }

/-! ### WellFormed refuses each ill-formed term -/

theorem test_wf_zero_tape_init : Config.wf { Config.bf8 with tapeInit := 0 } = false := by decide
theorem test_wf_cap_below_init : Config.wf { Config.bf8 with tapeCap := some 9 } = false := by decide
theorem test_wf_cap_at_init : Config.wf { Config.bf8 with tapeCap := some 10 } = true := by decide
theorem test_wf_every_tag_is_legal (i : Instr) : i.wf = true := by cases i <;> decide
theorem test_wf_lone_closer : Program.closersPaired [.jumpIfNonzero] = false := by decide
theorem test_wf_second_closer : Program.closersPaired [.jumpIfZero, .jumpIfNonzero, .jumpIfNonzero] = false := by decide
theorem test_wf_lone_opener : Program.wf [.jumpIfZero] = false ∧ Program.closersPaired [.jumpIfZero] = true := by decide
theorem test_wf_tape_order : Memory.wf { cells := [(3, 1#8), (2, 1#8)], len := 10 } = false := by decide
theorem test_wf_tape_zero_entry : Memory.wf { cells := [(3, 0#8)], len := 10 } = false := by decide
theorem test_wf_tape_cell_beyond_length : Memory.wf { cells := [(10, 1#8)], len := 10 } = false := by decide

/-! ### Decoding: the bits of 30_encoding.md R51 (bits 7..0), and vectors V1 to V9 -/

theorem test_decode_move_right : decodeByte 0b00111110#8 = .opcode .moveRight := by decide
theorem test_decode_move_left : decodeByte 0b00111100#8 = .opcode .moveLeft := by decide
theorem test_decode_increment : decodeByte 0b00101011#8 = .opcode .increment := by decide
theorem test_decode_decrement : decodeByte 0b00101101#8 = .opcode .decrement := by decide
theorem test_decode_output : decodeByte 0b00101110#8 = .opcode .output := by decide
theorem test_decode_input : decodeByte 0b00101100#8 = .opcode .input := by decide
theorem test_decode_jump_if_zero : decodeByte 0b01011011#8 = .opcode .jumpIfZero := by decide
theorem test_decode_jump_if_nonzero : decodeByte 0b01011101#8 = .opcode .jumpIfNonzero := by decide
theorem test_decode_rejects_commentary : decode [0x78#8, 0x2B#8] = .error (.commentaryByte 0x78#8) := by decide
theorem test_decode_rejects_nothing : decode [] = .error .noByte := by decide
theorem test_table_words : [0x3E, 0x3C, 0x2B, 0x2D, 0x2E, 0x2C, 0x5B, 0x5D].map (decodeTableWord 8) =
    [some .moveRight, some .moveLeft, some .increment, some .decrement, some .output, some .input,
     some .jumpIfZero, some .jumpIfNonzero] := by decide

/-- V7: the neighbours of the opcode values are commentary. -/
theorem test_filter_neighbours :
    filterSource none [0x3D#8, 0x3F#8, 0x2A#8, 0x2F#8, 0x5A#8, 0x5C#8, 0x5E#8, 0x3B#8] = .ok [] := by decide
/-- S9: `+x+.` -/
theorem test_filter_drops_x :
    filterSource none [0x2B#8, 0x78#8, 0x2B#8, 0x2E#8] = .ok [.increment, .increment, .output] := by decide
/-- V8 and V9. -/
theorem test_filter_capacity : filterSource (some 2) [0x2B#8, 0x2B#8, 0x2B#8] = .error .programStoreExhausted ∧
    filterSource (some 2) [0x2B#8, 0x78#8, 0x2B#8] = .ok [.increment, .increment] := by decide
/-- V11: `[[]]`. -/
theorem test_build_nested : buildTable false [.jumpIfZero, .jumpIfZero, .jumpIfNonzero, .jumpIfNonzero] =
    .ok [(0, 3), (1, 2), (2, 1), (3, 0)] := by decide
/-- V17: `[]]`; V19b: `[[]` under both settings; V19d: `[][` strict. -/
theorem test_build_unbalanced :
    buildTable false [.jumpIfZero, .jumpIfNonzero, .jumpIfNonzero] = .error (.unbalancedBracket 2) ∧
    buildTable false [.jumpIfZero, .jumpIfZero, .jumpIfNonzero] = .ok [(1, 2), (2, 1)] ∧
    buildTable true [.jumpIfZero, .jumpIfZero, .jumpIfNonzero] = .error (.unbalancedBracket 0) ∧
    buildTable true [.jumpIfZero, .jumpIfNonzero, .jumpIfZero] = .error (.unbalancedBracket 2) := by decide

/-! ### One step of each instruction -/

/-- V22: growth by ten at the tenth move; the old last cell keeps 7 and the new ones are 0. -/
theorem test_move_right_grows :
    (after (step (st [.moveRight] 0 [(9, 7#8)] 9))).map
      (fun t => (t.cur, t.tape.len, t.tape.read 9, t.tape.read 19, t.pc)) =
    some (10, 20, some 7#8, some 0#8, 1) := by decide
/-- V29a and V29b: the clipped block, and TapeExhausted. -/
theorem test_move_right_capacity :
    (after (exec .moveRight { withCfg (st [] 0) 3 (some 4) with cur := 2, tape := Memory.zeros 3 })).map
      (fun t => (t.cur, t.tape.len)) = some (3, 4) ∧
    (after (exec .moveRight { withCfg (st [] 0) 3 (some 4) with cur := 3, tape := Memory.zeros 4 })).map
      (fun t => t.status) = some (.failed 5 none) := by decide
/-- V24 and V26. -/
theorem test_move_left_clamps :
    (after (exec .moveLeft (st [] 0))).map (fun t => (t.cur, t.pc)) = some (0, 1) ∧
    (after (exec .moveLeft (st [] 0 [] 5))).map (fun t => t.cur) = some 4 := by decide
/-- V31 and V38: the wrap removes the entry; the neighbour is untouched. -/
theorem test_increment_wraps :
    (after (exec .increment (st [] 0 [(0, 0xFF#8)]))).map (fun t => t.tape.cells) = some [] ∧
    (after (exec .increment (st [] 0 [(0, 5#8), (1, 9#8)]))).map (fun t => t.tape.cells) =
      some [(0, 6#8), (1, 9#8)] := by decide
/-- V33. -/
theorem test_decrement_wraps :
    (after (exec .decrement (st [] 0))).map (fun t => t.tape.cells) = some [(0, 0xFF#8)] := by decide
/-- V60 and V70: a zero byte is written raw; a failed write logs nothing. -/
theorem test_output :
    (after (exec .output (st [.output] 0))).map (fun t => (t.env.out, t.pc)) = some ([0#8], 1) ∧
    (after (exec .output (withAnswers (st [.output] 0) [.failed] (some .accepted)))).map
      (fun t => (t.env.out, t.status, t.env.outAns)) = some ([], .failed 3 none, []) := by decide
/-- V66 and V67. -/
theorem test_input :
    (after (exec .input (withInput (st [.input] 0 [(0, 1#8)]) [7#8] true))).map
      (fun t => (t.tape.read 0, t.env.inp, t.pc)) = some (some 7#8, [], 1) ∧
    (after (exec .input (withInput (st [.input] 0) [] true))).map (fun t => t.status) =
      some (.failed 2 none) := by decide
/-- An open stream with nothing yet, and a write not answered yet, change nothing. -/
theorem test_ports_wait :
    after (exec .input (withInput (st [.input] 0) [] false)) = some (withInput (st [.input] 0) [] false) ∧
    after (exec .output (withAnswers (st [.output] 0) [] none)) = some (withAnswers (st [.output] 0) [] none) := by decide
/-- V40 and V51: `[-]` taken; `[` unpaired. -/
theorem test_jump_if_zero :
    (after (step (st [.jumpIfZero, .decrement, .jumpIfNonzero] 0))).map (fun t => t.pc) = some 3 ∧
    (after (step (st [.jumpIfZero] 0))).map (fun t => t.status) = some (.failed 4 (some 0)) := by decide
/-- V52: `+[` at index 1 with cell 1 falls through. -/
theorem test_jump_if_zero_untaken :
    (after (step (st [.increment, .jumpIfZero] 1 [(0, 1#8)]))).map (fun t => (t.pc, t.phase)) =
      some (2, .running) := by decide
/-- V42: the closer of `++[-]` with cell 1 goes to the body; S6: with cell 0 it falls through. -/
theorem test_jump_if_nonzero :
    (after (step (st [.increment, .increment, .jumpIfZero, .decrement, .jumpIfNonzero] 4 [(0, 1#8)]))).map
      (fun t => t.pc) = some 3 ∧
    (after (step (st [.increment, .jumpIfZero, .decrement, .jumpIfNonzero] 3))).map (fun t => t.pc) = some 4 := by decide
/-- The model's two faults. -/
theorem test_model_faults :
    faultOf (exec .increment (st [] 0 [] 10)) = some (.noCell 10) ∧
    faultOf (exec .jumpIfNonzero (st [.jumpIfZero] 0 [(0, 1#8)])) = some (.noTableEntry 0) := by decide

/-! ### Load, halt, reset, placement -/

/-- S8: `]` alone fails the load with index 0 after the filter's two steps and one step of the builder. -/
theorem test_load_unbalanced :
    (after (runSteps 3 { State.reset with src := [0x5D#8] })).map (fun t => (t.status, t.env.out)) =
      some (.failed 1 (some 0), []) := by decide
/-- V1: an empty source is loaded in two steps and halts at the first fetch test. -/
theorem test_empty_source_halts :
    (after (runSteps 2 State.reset)).map (fun t => (t.status, t.tape.len)) = some (.running, 10) ∧
    (after (runSteps 3 State.reset)).map (fun t => t.status) = some .halted := by decide
/-- A reset while running begins again with the new source; the byte already written stays with the host. -/
theorem test_reset_while_running :
    (after (step ((((st [.output] 0).setEnv { Env.initial with out := [2#8] })).hostMove
      (.reset { cfg := Config.bf8, src := [0x2B#8] })))).map
      (fun t => (t.phase, t.src, t.env.out, t.env.outPast, t.env.rst)) =
    some (.loading (.filter 0), [0x2B#8], [], [2#8], none) := by decide
/-- Every row's word, placed after reset, is run by the next step. -/
theorem test_placed_words :
    [0x3E, 0x3C, 0x2B, 0x2D, 0x2E, 0x2C, 0x5B, 0x5D].map
      (fun w => (after (step (State.reset.withFetchWord 8 w))).map fun t => t.status) =
    [some .running, some .running, some .running, some .running, some .running, some (.failed 2 none),
     some .running, some .running] := by decide

/-! ### Witnesses: states and operands that meet all the hypotheses of an obligation -/

/-- `[]`, at its closer, current cell 1. -/
def spin : State := st [.jumpIfZero, .jumpIfNonzero] 1 [(0, 1#8)]

/-- A running state over a built program meets the invariant. -/
theorem inv_of_scan (s : State) (b : Builder) (hs : scanFrom 0 { jt := [], bstk := [] } s.prog = .ok b)
    (hj : s.jt = b.jt) (hc : s.cfg = Config.bf8) (hr : s.env.rst = none) (hw : s.tape.wf = true) (hp : s.phase = .running)
    (h1 : s.cur < s.tape.len) (h2 : s.pc ≤ s.prog.length) (h3 : s.bstk = []) (h4 : s.tape.len = 10) : s.Inv := by
  refine ⟨by rw [hc]; rfl, by simp [hr], fun _ => hw, by simp [hc, Config.bf8], ?_⟩
  simp only [State.PhaseInv, hp]
  exact ⟨h1, h2, h3, by rw [hj]; exact tableInv_of_scan hs, by simp [hc, Config.bf8], by simp [hc, Config.bf8],
    by simp [hc, Config.bf8, h4]⟩

theorem witness_spin_inv : spin.Inv :=
  inv_of_scan spin { jt := [(0, 1), (1, 0)], bstk := [] } rfl rfl rfl rfl rfl rfl (by decide) (by decide) rfl rfl

theorem witness_CommentaryBytesAreDropped : ∀ i, encodeByte i ≠ 0x78#8 := by intro i; cases i <;> decide
theorem witness_CommentedProgramTextLoadsAsTheProgram :
    (∀ e ∈ [([0x78#8, 0x0A#8], Instr.increment)], ∀ b ∈ e.1, decodeByte b = .commentary) ∧
    (∀ b ∈ [0x20#8], decodeByte b = .commentary) := by decide
theorem witness_FullProgramStoreFailsTheLoad :
    let s := { State.reset with cfg := { Config.bf8 with progCap := some 0 }, src := [0x2B#8] }
    s.env.rst = none ∧ s.phase = .loading (.filter 0) ∧ s.src[0]? = some 0x2B#8 ∧
    decodeByte 0x2B#8 = .opcode .increment ∧ s.cfg.progCap = some 0 ∧ 0 ≤ s.prog.length := by decide
theorem witness_LoaderStoresTheDecodedOpcode :
    let s := { State.reset with src := [0x2B#8, 0x78#8] }
    s.env.rst = none ∧ s.phase = .loading (.filter 0) ∧ s.src[0]? = some 0x2B#8 ∧
    decodeByte 0x2B#8 = .opcode .increment ∧ (∀ c, s.cfg.progCap = some c → s.prog.length < c) := by
  refine ⟨rfl, rfl, rfl, by decide, by simp [State.reset, Config.bf8]⟩
theorem witness_LoaderStoresTheDecodedOpcode_commentary :
    let s := { State.reset with src := [0x2B#8, 0x78#8], phase := .loading (.filter 1) }
    s.env.rst = none ∧ s.phase = .loading (.filter 1) ∧ s.src[1]? = some 0x78#8 ∧
    decodeByte 0x78#8 = .commentary := by decide
theorem witness_FirstUnbalancedCloserFailsTheLoad :
    ([.jumpIfZero, .jumpIfNonzero, .jumpIfNonzero] : List Instr)[2]? = some .jumpIfNonzero ∧
    Program.pending (([.jumpIfZero, .jumpIfNonzero, .jumpIfNonzero] : List Instr).take 2) 0 = some 0 := by decide
theorem witness_FirstUnbalancedCloserFailsTheLoad_step :
    let s := { State.reset with prog := [.jumpIfNonzero], phase := .loading (.build 0) }
    s.env.rst = none ∧ s.phase = .loading (.build 0) ∧ s.prog[0]? = some .jumpIfNonzero ∧ s.bstk = [] := by decide
theorem witness_PendingOpenersAreAcceptedWithoutEntry :
    scanFrom 0 { jt := [], bstk := [] } [.jumpIfZero, .jumpIfZero, .jumpIfNonzero] =
      .ok { jt := [(1, 2), (2, 1)], bstk := [0] } ∧ 0 ∈ [0] := by decide
theorem witness_StrictBuildRejectsTheLastPendingOpener :
    Program.pending [.jumpIfZero, .jumpIfNonzero, .jumpIfZero] 0 = some (0 + 1) ∧
    Program.pending [.jumpIfZero, .jumpIfNonzero] 0 = some 0 ∧ Program.pending [.jumpIfNonzero] 0 = none := by decide
theorem witness_WellFormedProgramPairsEveryOpener :
    Program.wf [.jumpIfZero, .jumpIfNonzero] = true ∧
    ([.jumpIfZero, .jumpIfNonzero] : List Instr)[0]? = some .jumpIfZero := by decide
/-- For the three statements about a built table: the nested `[[]]`, built under both settings. -/
theorem witness_BuiltTable (strict : Bool) :
    buildTable strict [.jumpIfZero, .jumpIfZero, .jumpIfNonzero, .jumpIfNonzero] =
      .ok [(0, 3), (1, 2), (2, 1), (3, 0)] ∧
    JumpTable.lookup [(0, 3), (1, 2), (2, 1), (3, 0)] 0 = some 3 ∧
    JumpTable.lookup [(0, 3), (1, 2), (2, 1), (3, 0)] 1 = some 2 := by cases strict <;> decide
/-- And `[[]`, whose first opener has no entry. -/
theorem witness_BuiltTable_unpaired :
    buildTable false [.jumpIfZero, .jumpIfZero, .jumpIfNonzero] = .ok [(1, 2), (2, 1)] ∧
    JumpTable.lookup [(1, 2), (2, 1)] 0 = none ∧ JumpTable.lookup [(1, 2), (2, 1)] 1 = some 2 := by decide
theorem witness_LoadPhaseRefinesTheBuilders :
    let s := { State.reset with src := [0x5B#8, 0x78#8, 0x5D#8] }
    s.env.rst = none ∧ s.phase = .loading (.filter 0) ∧ s.prog = [] ∧
    loadProgram s.cfg s.src = .ok ([.jumpIfZero, .jumpIfNonzero], [(0, 1), (1, 0)]) := by decide
theorem witness_LoadPhaseRefinesTheBuilders_error :
    loadProgram State.reset.cfg [0x5D#8] = .error (.unbalancedBracket 0) := by decide
theorem witness_ResetBeginsANewLifecycle :
    (spin.hostMove (.reset { cfg := Config.bf8, src := [] })).env.rst = some { cfg := Config.bf8, src := [] } := by decide
theorem witness_RunStartsOnAFreshTape :
    let s := { State.reset with prog := [.jumpIfZero], bstk := [0], phase := .loading (.build 1) }
    s.env.rst = none ∧ s.phase = .loading (.build s.prog.length) ∧ s.cfg.strictOpeners = false := by decide
/-- The strict branch: `STRICT_OPENERS` true, no opener pending at the end of the scan. -/
theorem witness_RunStartsOnAFreshTape_strict :
    let s := { State.reset with cfg := { Config.bf8 with strictOpeners := true }, prog := [.increment],
                                phase := .loading (.build 1) }
    s.env.rst = none ∧ s.phase = .loading (.build s.prog.length) ∧ s.cfg.strictOpeners = true ∧ s.bstk = [] ∧
    (after (step s)).map (fun t => (t.phase, t.tape.len)) = some (.running, 10) := by decide
theorem witness_StepRunsTheFetchedInstruction :
    spin.env.rst = none ∧ spin.phase = .running ∧ spin.prog[spin.pc]? = some .jumpIfNonzero := by decide
theorem witness_PlacedWordIsRunByTheNextStep : decodeTableWord 8 0x5D = some .jumpIfNonzero := by decide
theorem witness_HaltsExactlyAtProgramEnd :
    let s := { spin with pc := 2 }
    s.env.rst = none ∧ s.phase = .running ∧ s.prog.length ≤ s.pc := by decide
theorem witness_TerminalPhaseWaitsForReset :
    spin.halt.env.rst = none ∧ spin.halt.phase = .halted ∧
    (spin.raise .inputExhausted).phase = .failed .inputExhausted := by decide
/-- V68: an input on a closed stream fails. -/
theorem witness_FailureKeepsTheStreams :
    let s := withInput (st [.input] 0) [] true
    s.env.rst = none ∧ s.phase = .running ∧ (after (step s)).map (fun t => t.phase) = some (.failed .inputExhausted) := by
  decide
theorem witness_FailedRunIsNeverRead :
    let s := { spin.raise .inputExhausted with env := { spin.env with rst := some { cfg := Config.bf8, src := [0x2B#8] } } }
    s.phase = .failed .inputExhausted ∧ (after (runSteps 5 s)).map (fun t => t.phase) = some .running := by decide
theorem witness_PhaseMovesOnlyForward :
    spin.env.rst = none ∧ (after (step spin)).isSome = true ∧ State.reset.env.rst = none ∧
    (after (step State.reset)).isSome = true ∧ (after (step spin.halt)).isSome = true ∧
    (after (step (spin.raise .outputFailure))).isSome = true := by decide
/-- Boundary values of move-right's clauses: at the last cell, before it, just below a finite capacity, at it. -/
theorem witness_MoveRightResult :
    (st [] 0 [] 9).phase = .running ∧ (st [] 0 [] 8).phase = .running ∧ (∀ c, (st [] 0 [] 9).cfg.tapeCap = some c → (st [] 0 [] 9).cur + 1 < c) ∧
    (st [] 0 [] 9).cur + 1 = (st [] 0 [] 9).tape.len ∧ (st [] 0 [] 9).cfg.tapeCap = none ∧
    (st [] 0 [] 9).tape.wf = true ∧ (st [] 0 [] 8).cur + 1 ≠ (st [] 0 [] 8).tape.len := by
  refine ⟨rfl, rfl, (by intro c h; cases h), rfl, rfl, rfl, by decide⟩
theorem witness_MoveRightResult_capacity :
    let s := { withCfg (st [] 0) 3 (some 4) with cur := 2, tape := Memory.zeros 3 }
    let u := { s with cur := 3, tape := Memory.zeros 4 }
    s.phase = .running ∧ u.phase = .running ∧ (∀ c, s.cfg.tapeCap = some c → s.cur + 1 < c) ∧
    s.cur + 1 = s.tape.len ∧ s.cfg.tapeCap = some 4 ∧
    u.cfg.tapeCap = some 4 ∧ 4 ≤ u.cur + 1 := by
  refine ⟨rfl, rfl, (by intro c h; cases h; decide), rfl, rfl, rfl, by decide⟩
theorem witness_MoveLeftResult :
    (st [] 0 [] 1).phase = .running ∧ (st [] 0).phase = .running ∧ 0 < (st [] 0 [] 1).cur ∧ (st [] 0).cur = 0 := by decide
theorem witness_IncrementResult :
    let s := st [] 0 [(0, 0xFF#8)]
    s.phase = .running ∧ s.tape.read s.effectiveAddress = some 0xFF#8 := by decide
theorem witness_DecrementResult :
    (st [] 0 [] 9).phase = .running ∧ (st [] 0 [] 9).tape.read (st [] 0 [] 9).effectiveAddress = some 0#8 := by decide
theorem witness_OutputResult :
    (∀ ans rest, (withAnswers (st [] 0) ans rest).phase = .running ∧
      (withAnswers (st [] 0) ans rest).tape.read 0 = some 0#8) ∧
    (st [] 0).tape.read (st [] 0).effectiveAddress = some 0#8 ∧
    (withAnswers (st [] 0) [.accepted] none).env.outAns = .accepted :: [] ∧
    (withAnswers (st [] 0) [] (some .accepted)).env.outRest = some .accepted ∧
    (withAnswers (st [] 0) [.failed] none).env.outAns = .failed :: [] ∧
    (withAnswers (st [] 0) [] (some .failed)).env.outRest = some .failed :=
  ⟨fun _ _ => ⟨rfl, rfl⟩, by decide⟩
theorem witness_InputResult :
    (withInput (st [] 0 [] 9) [0#8] false).phase = .running ∧ (withInput (st [] 0) [] true).phase = .running ∧
    (withInput (st [] 0 [] 9) [0#8] false).env.inp = 0#8 :: [] ∧
    (withInput (st [] 0 [] 9) [0#8] false).effectiveAddress < (withInput (st [] 0 [] 9) [0#8] false).tape.len ∧
    (withInput (st [] 0) [] true).env.inp = [] ∧ (withInput (st [] 0) [] true).env.inClosed = true := by decide
theorem witness_JumpIfZeroResult :
    (st [.jumpIfZero] 0).phase = .running ∧ (st [.jumpIfZero, .jumpIfNonzero] 0).phase = .running ∧
    spin.phase = .running ∧
    (st [.jumpIfZero] 0).tape.read 0 = some 0#8 ∧ (st [.jumpIfZero] 0).jt.lookup 0 = none ∧
    (st [.jumpIfZero, .jumpIfNonzero] 0).jt.lookup 0 = some 1 ∧ spin.tape.read spin.effectiveAddress = some 1#8 := by decide
theorem witness_JumpIfNonzeroResult :
    spin.Inv ∧ spin.phase = .running ∧ spin.prog[spin.pc]? = some .jumpIfNonzero ∧
    spin.tape.read spin.effectiveAddress = some 1#8 ∧ spin.jt.lookup spin.pc = some 0 :=
  ⟨witness_spin_inv, rfl, rfl, by decide, by decide⟩
theorem witness_UnansweredTransactionChangesNothing :
    (withInput (st [] 0) [] false).phase = .running ∧ (withAnswers (st [] 0) [] none).phase = .running ∧
    (withInput (st [] 0) [] false).env.inp = [] ∧ (withInput (st [] 0) [] false).env.inClosed = false ∧
    (withAnswers (st [] 0) [] none).env.outAns = [] ∧ (withAnswers (st [] 0) [] none).env.outRest = none ∧
    (withAnswers (st [] 0) [] none).tape.read 0 = some 0#8 := by decide
theorem witness_MissingCellFaultsByName :
    (st [] 0 [] 10).phase = .running ∧ (st [] 0 [] 10).tape.len ≤ (st [] 0 [] 10).effectiveAddress := by decide
theorem witness_CompletedInstructionFrame :
    spin.phase = .running ∧ (after (exec .jumpIfNonzero spin)).map (fun t => t.phase) = some .running ∧
    (after (exec .moveRight spin)).map (fun t => t.phase) = some .running ∧
    (after (exec .increment spin)).map (fun t => t.phase) = some .running := by decide
theorem witness_LoadedProgramIsNeverWritten :
    (after (exec .increment spin)).isSome = true ∧ spin.env.rst = none ∧ (∀ l, spin.phase ≠ .loading l) ∧
    (after (step spin)).isSome = true :=
  ⟨by decide, rfl, (by intro l h; cases h), by decide⟩
theorem witness_EachInstructionRaisesOnlyItsOwnCause :
    (st [.jumpIfZero] 0).phase = .running ∧
    (after (exec .jumpIfZero (st [.jumpIfZero] 0))).map (fun t => t.phase) = some (.failed (.jumpTargetMissing 0)) ∧
    (st [] 0).env.rst = none ∧ (st [] 0).prog[(st [] 0).pc]? = none ∧ (after (step (st [] 0))).isSome = true := by decide
/-- A strict machine: the spinning loop with the parameter set. -/
def strictSpin : State := { spin with cfg := { Config.bf8 with strictOpeners := true } }

theorem strictSpin_run : RunInv strictSpin := by
  refine ⟨by decide, by decide, rfl, tableInv_of_scan (b := { jt := [(0, 1), (1, 0)], bstk := [] }) rfl,
    fun _ i hi => ?_, fun c h => (by cases h), fun _ => by decide⟩
  match i, hi with
  | 0, _ => exact ⟨1, by decide⟩
  | 1, hi => cases hi
  | n + 2, hi => simp [strictSpin, spin, st] at hi

theorem witness_StrictMachineNeverMissesAJumpTarget :
    strictSpin.Inv ∧ strictSpin.cfg.strictOpeners = true ∧ strictSpin.phase = .running ∧
    strictSpin.env.rst = none ∧ (after (step strictSpin)).isSome = true :=
  ⟨⟨rfl, fun r h => (by cases h), fun _ => rfl, fun c h => (by cases h), strictSpin_run⟩, rfl, rfl, rfl, by decide⟩

theorem witness_CellArithmeticIsAGroup :
    (∀ i ∈ [Instr.increment, .decrement, .increment], i = .increment ∨ i = .decrement) ∧
    (st [] 0).phase = .running ∧ (st [] 0).tape.read (st [] 0).effectiveAddress = some 0#8 := by decide
theorem witness_CursorMovesCompose :
    (st [] 0 [] 9).phase = .running ∧
    (st [] 0 [] 9).cfg.tapeCap = none ∧ 1 ≤ (st [] 0 [] 9).cfg.tapeInit ∧
    (st [] 0 [] 9).cur < (st [] 0 [] 9).tape.len := by decide
theorem witness_PairedLoopArrivals :
    spin.Inv ∧ spin.phase = .running ∧ spin.env.rst = none ∧ spin.jt.lookup 0 = some 1 ∧ 0 < 1 ∧
    spin.tape.read spin.effectiveAddress = some 1#8 ∧ (spin.pc = 0 ∨ spin.pc = 1) :=
  ⟨witness_spin_inv, rfl, rfl, by decide, by decide, by decide, .inr rfl⟩
theorem witness_EmptyLoopSpinsForEver :
    spin.env.rst = none ∧ spin.phase = .running ∧ spin.pc = 0 + 1 ∧ spin.prog[spin.pc]? = some .jumpIfNonzero ∧
    spin.jt.lookup spin.pc = some 0 ∧ spin.tape.read spin.effectiveAddress = some 1#8 ∧ (1#8 : Byte) ≠ 0#8 := by decide
theorem witness_EveryStepAnswersAndKeepsTheInvariant : spin.Inv := witness_spin_inv
theorem witness_EveryStepKeepsTheTapeCanonical :
    ((∀ c, spin.phase ≠ .failed c) → spin.tape.wf = true) ∧ (after (step spin)).map (fun t => t.phase) = some .running :=
  ⟨fun _ => by decide, by decide⟩
theorem witness_EqualTapesAreEqualData : spin.tape.wf = true := by decide
theorem witness_StreamsMoveOneByteAtMost :
    (after (step (st [.output] 0))).map (fun t => t.env.out) = some [0#8] := by decide
theorem witness_LoadPhaseMakesNoPortTransaction :
    State.reset.env.rst = none ∧ State.reset.phase = .loading (.filter 0) ∧ (after (step State.reset)).isSome = true := by
  decide
theorem witness_OtherSixInstructionsIgnoreThePorts :
    spin.phase = .running ∧ (st [] 0 [] 10).phase = .running ∧
    (after (exec .increment spin)).isSome = true ∧ (faultOf (exec .increment (st [] 0 [] 10))).isSome = true := by decide
theorem witness_TapeLengthIsUnobservable :
    spin.phase = .running ∧ spin.env.rst = none ∧ 1 ≤ spin.cfg.tapeInit ∧ 1 ≤ 3 ∧ spin.cur < spin.tape.len ∧
    spin.cur < 1 ∧ (∀ c, spin.cfg.tapeCap = some c → spin.tape.len ≤ c ∧ 1 ≤ c) ∧ (after (step spin)).isSome = true := by
  refine ⟨rfl, rfl, by decide, by decide, by decide, by decide, (by intro c h; cases h), by decide⟩
/-- `[[-]` just past its unpaired first opener. -/
theorem witness_UnpairedOpenerIsPassedForGood :
    let s := st [.jumpIfZero, .jumpIfZero, .decrement, .jumpIfNonzero] 1 [(0, 1#8)]
    s.Inv ∧ s.phase = .running ∧ s.env.rst = none ∧ s.prog[0]? = some .jumpIfZero ∧ s.jt.lookup 0 = none ∧ 0 ≤ s.pc ∧
    (after (step s)).map (fun t => t.phase) = some .running :=
  ⟨inv_of_scan _ { jt := [(1, 3), (3, 1)], bstk := [0] } rfl rfl rfl rfl rfl rfl (by decide) (by decide) rfl rfl,
    rfl, rfl, rfl, by decide, by decide, by decide⟩
theorem witness_StatusShowsPhaseCodeAndInfo :
    State.reset.phase = .loading (.filter 0) ∧ spin.phase = .running ∧ spin.halt.phase = .halted := by decide

end Sys2Proof.Tests
end

section
/-! SUPPORT. The loaded program, its table, the parameters, the source and the builder's stack are read-only during a
run (20_memory.md R44). -/

namespace Sys2Proof.Machine

/-- The frame of every instruction at what the load phase left: each way it can answer is an update of the tape, the
cursor, `pc`, the phase or the environment only. -/
theorem exec_next_keeps_loaded {i : Instr} {s t : State} (h : exec i s = .next t) :
    t.prog = s.prog ∧ t.jt = s.jt ∧ t.cfg = s.cfg ∧ t.src = s.src ∧ t.bstk = s.bstk := by
  cases i with
  | moveRight =>
    obtain ⟨-, rfl⟩ | ⟨-, rfl⟩ := (execMoveRight_next s t).1 h
    · simp
    · simp
  | moveLeft =>
    obtain rfl := (execMoveLeft_next s t).1 h
    simp
  | increment =>
    obtain ⟨v, -, -, rfl⟩ := (execIncrement_next s t).1 h
    simp
  | decrement =>
    obtain ⟨v, -, -, rfl⟩ := (execDecrement_next s t).1 h
    simp
  | output =>
    obtain ⟨v, -, ⟨ans, rfl⟩ | ⟨ans, rfl⟩ | ⟨-, -, rfl⟩⟩ := execOutput_next s t h
    · simp
    · simp
    · simp
  | input =>
    obtain ⟨b, rest, -, -, rfl⟩ | ⟨-, -, rfl⟩ | ⟨-, -, rfl⟩ := execInput_next s t h
    · simp
    · simp
    · simp
  | jumpIfZero =>
    obtain ⟨v, -, ⟨-, rfl⟩ | ⟨-, j, -, rfl⟩ | ⟨-, -, rfl⟩⟩ := execJumpIfZero_next s t h
    · simp
    · simp
    · simp
  | jumpIfNonzero =>
    obtain ⟨v, -, ⟨-, rfl⟩ | ⟨-, j, -, rfl⟩⟩ := execJumpIfNonzero_next s t h
    · simp
    · simp

/-- Outside the load phase and without a reset to serve, a step executes an instruction, halts, or leaves the state as
it is, so it keeps everything an instruction keeps. -/
theorem step_next_keeps_loaded {s t : State} (hr : s.env.rst = none) (hl : ∀ st, s.phase ≠ .loading st)
    (h : step s = .next t) :
    t.prog = s.prog ∧ t.jt = s.jt ∧ t.cfg = s.cfg ∧ t.src = s.src ∧ t.bstk = s.bstk := by
  obtain ⟨r, hr', -⟩ | ⟨-, st, hp, -⟩ | ⟨-, -, i, -, hs⟩ | ⟨-, -, -, hs⟩ | ⟨-, -, hs⟩ | ⟨-, c, -, hs⟩ := step_cases s
  case inl => simp [hr] at hr'
  case inr.inl => exact absurd hp (hl st)
  case inr.inr.inl => exact exec_next_keeps_loaded (hs.symm.trans h)
  all_goals
    cases hs.symm.trans h
    simp

/-- Settles O37: the frame of the instructions, and of the step by its cases. -/
theorem loadedProgramIsNeverWritten : Obligations.LoadedProgramIsNeverWritten := by
  unfold Obligations.LoadedProgramIsNeverWritten
  refine ⟨fun i s t h => exec_next_keeps_loaded h, fun s t hr hl h => ?_⟩
  obtain ⟨hprog, hjt, hcfg, hsrc, -⟩ := step_next_keeps_loaded hr hl h
  exact ⟨hprog, hjt, hcfg, hsrc⟩

end Sys2Proof.Machine
end

section
/-! SUPPORT. Openers still pending at the end of the scan: discarded without `STRICT_OPENERS`, the last of them
rejected with it (30_encoding.md R59, R60). -/

namespace Sys2Proof.Machine

@[simp] theorem finishScan_false (b : Builder) : finishScan false b = .ok b.jt := by
  cases h : b.bstk <;> simp [finishScan, h]

/-- With nothing pending the parameter does not matter. -/
theorem finishScan_of_bstk_nil (strict : Bool) {b : Builder} (h : b.bstk = []) : finishScan strict b = .ok b.jt := by
  simp [finishScan, h]

theorem finishScan_true_of_bstk_cons {b : Builder} {top : Nat} {rest : List Nat} (h : b.bstk = top :: rest) :
    finishScan true b = .error (.unbalancedBracket top) := by
  simp [finishScan, h]

/-- A scan that succeeds leaves the build to the end of the scan. -/
theorem buildTable_of_scan_ok (strict : Bool) {p : List Instr} {b : Builder}
    (h : scanFrom 0 { jt := [], bstk := [] } p = .ok b) : buildTable strict p = finishScan strict b := by
  simp [buildTable, h]

/-- An unbalanced closer ends the build, whatever the parameter. -/
theorem buildTable_of_scan_error (strict : Bool) {p : List Instr} {c : Cause}
    (h : scanFrom 0 { jt := [], bstk := [] } p = .error c) : buildTable strict p = .error c := by
  simp [buildTable, h]

/-- The scan of a whole program succeeds when the count does, and leaves that many openers on the stack. -/
theorem scan_ok_of_pending {p : List Instr} {d : Nat} (h : Program.pending p 0 = some d) :
    ∃ b, scanFrom 0 { jt := [], bstk := [] } p = .ok b ∧ b.bstk.length = d :=
  (scanFrom_of_pending p 0 { jt := [], bstk := [] }).1 d h

/-- The scan of a whole program fails when the count meets a closer with nothing pending. -/
theorem scan_error_of_pending {p : List Instr} (h : Program.pending p 0 = none) :
    ∃ i, scanFrom 0 { jt := [], bstk := [] } p = .error (.unbalancedBracket i) :=
  (scanFrom_of_pending p 0 { jt := [], bstk := [] }).2 h

/-- The builder's invariant holds of what the scan of a whole program leaves, the stack included. -/
theorem builderInv_of_scan {p : List Instr} {b : Builder} (h : scanFrom 0 { jt := [], bstk := [] } p = .ok b) :
    BuilderInv p p.length b.jt b.bstk :=
  builderInv_scanFrom p p 0 _ b rfl (Nat.zero_le _) (builderInv_start p) h

/-- Without the parameter the build succeeds exactly when every closer has an opener (30_encoding.md R58, R59). -/
theorem buildTable_false_ok_iff (p : List Instr) :
    (∃ jt, buildTable false p = .ok jt) ↔ Program.closersPaired p = true := by
  unfold Program.closersPaired
  cases hp : Program.pending p 0 with
  | none =>
    obtain ⟨i, hs⟩ := scan_error_of_pending hp
    simp [buildTable_of_scan_error false hs]
  | some d =>
    obtain ⟨b, hs, -⟩ := scan_ok_of_pending hp
    simp [buildTable_of_scan_ok false hs]

/-- The top of the stack is the last opener without an entry: an opener after it that had none would be on the stack
above it, and the stack falls. -/
theorem BuilderInv.paired_of_top_lt {p : List Instr} {jt : JumpTable} {t k : Nat} {rest : List Nat}
    (h : BuilderInv p p.length jt (t :: rest)) (htk : t < k) (hk : p[k]? = some .jumpIfZero) :
    ∃ j, jt.lookup k = some j := by
  cases hl : jt.lookup k with
  | some j => exact ⟨j, rfl⟩
  | none =>
    obtain ⟨hlt, -⟩ := List.getElem?_eq_some_iff.1 hk
    have hmem : k ∈ t :: rest := (h.pending k).2 ⟨hlt, hk, hl⟩
    have hle : k ≤ t := by
      obtain rfl | hrest := List.mem_cons.1 hmem
      · exact Nat.le_refl _
      · exact Nat.le_of_lt (List.rel_of_pairwise_cons h.falling hrest)
    omega

/-- Settles O9: the builder's invariant says what is on the stack at the end of the scan. -/
theorem pendingOpenersAreAcceptedWithoutEntry : Obligations.PendingOpenersAreAcceptedWithoutEntry := by
  unfold Obligations.PendingOpenersAreAcceptedWithoutEntry
  refine fun p => ⟨buildTable_false_ok_iff p, fun b hs => ⟨?_, fun k hk => ?_⟩⟩
  · rw [buildTable_of_scan_ok false hs, finishScan_false]
  · exact (((builderInv_of_scan hs).pending k).1 hk).2

/-- Settles O10: the rejected index is the top of the stack, and by the builder's invariant the stack holds the
openers without an entry, the last on top. -/
theorem strictBuildRejectsTheLastPendingOpener : Obligations.StrictBuildRejectsTheLastPendingOpener := by
  unfold Obligations.StrictBuildRejectsTheLastPendingOpener
  refine ⟨fun p d hp => ?_, fun p hp => ?_⟩
  · obtain ⟨b, hs, hlen⟩ := scan_ok_of_pending hp
    obtain ⟨t, rest, hb⟩ := List.exists_cons_of_length_eq_add_one hlen
    have hinv : BuilderInv p p.length b.jt (t :: rest) := hb ▸ builderInv_of_scan hs
    obtain ⟨-, hopener, hnone⟩ := (hinv.pending t).1 List.mem_cons_self
    refine ⟨t, b.jt, ?_, ?_, hopener, hnone, fun k htk hk => hinv.paired_of_top_lt htk hk⟩
    · rw [buildTable_of_scan_ok true hs, finishScan_true_of_bstk_cons hb]
    · rw [buildTable_of_scan_ok false hs, finishScan_false]
  · obtain hp | hp := hp
    · obtain ⟨b, hs, hlen⟩ := scan_ok_of_pending hp
      have hb : b.bstk = [] := List.eq_nil_of_length_eq_zero hlen
      rw [buildTable_of_scan_ok true hs, buildTable_of_scan_ok false hs, finishScan_of_bstk_nil true hb,
        finishScan_false]
    · obtain ⟨i, hs⟩ := scan_error_of_pending hp
      rw [buildTable_of_scan_error true hs, buildTable_of_scan_error false hs]

end Sys2Proof.Machine
end

section
/-! SUPPORT. The two cursor moves (41_pointer.md): move-right with its growth and its limit, move-left with its clamp. -/

namespace Sys2Proof.Machine

/-- Past the end of a canonical tape nothing is listed. -/
theorem Memory.lookup_of_len_le {m : Memory} {a : Nat} (hwf : m.wf = true) (ha : m.len ≤ a) :
    assocLookup m.cells a = none := by
  cases hl : assocLookup m.cells a with
  | none => rfl
  | some v =>
    obtain ⟨-, hcells⟩ := (Memory.wf_iff m).1 hwf
    obtain ⟨hlt, -⟩ := hcells _ (mem_of_assocLookup _ hl)
    exact absurd hlt (Nat.not_lt.2 ha)

/-- The limit is a finite capacity that the move would reach. -/
theorem State.atTapeCap_iff (s : State) :
    s.atTapeCap = true ↔ ∃ c, s.cfg.tapeCap = some c ∧ c ≤ s.cur + 1 := by
  unfold State.atTapeCap
  cases s.cfg.tapeCap <;> simp

theorem State.growthSize_of_unbounded {s : State} (h : s.cfg.tapeCap = none) :
    s.growthSize = s.cfg.tapeInit := by
  simp [State.growthSize, Config.growBlock, h]

theorem State.growthSize_of_cap {s : State} {c : Nat} (h : s.cfg.tapeCap = some c) :
    s.growthSize = min s.cfg.tapeInit (c - s.tape.len) := by
  simp [State.growthSize, Config.growBlock, h]

/-- Growth touches the tape only. -/
theorem State.growIfAtEnd_eq_setTape (s : State) : s.growIfAtEnd = s.setTape s.growIfAtEnd.tape := by
  unfold State.growIfAtEnd
  split
  · rfl
  · rfl

/-- The appended cells of a canonical tape read 0 (41_pointer.md R80). -/
theorem State.growIfAtEnd_read_new {s : State} {a : Nat} (hwf : s.tape.wf = true) (hold : s.tape.len ≤ a)
    (hnew : a < s.growIfAtEnd.tape.len) : s.growIfAtEnd.tape.read a = some 0#8 :=
  (Memory.read_eq_some _ _ _).2 ⟨hnew, by
    rw [State.growIfAtEnd_cells, Memory.lookup_of_len_le hwf hold, Option.getD_none, unwrittenCell]⟩

/-- The tape after a move to the right that meets no limit. -/
def State.movedRightTape (s : State) : Memory := (s.setCur (s.cur + 1)).growIfAtEnd.tape

theorem State.movedRightTape_len (s : State) :
    s.movedRightTape.len = if s.cur + 1 = s.tape.len then s.tape.len + s.growthSize else s.tape.len :=
  State.growIfAtEnd_len _

theorem State.movedRightTape_read_of_lt (s : State) {a : Nat} (h : a < s.tape.len) :
    s.movedRightTape.read a = s.tape.read a :=
  State.growIfAtEnd_read_of_lt _ h

theorem State.movedRightTape_read_new {s : State} {a : Nat} (hwf : s.tape.wf = true) (hold : s.tape.len ≤ a)
    (hnew : a < s.movedRightTape.len) : s.movedRightTape.read a = some 0#8 :=
  State.growIfAtEnd_read_new (s := s.setCur (s.cur + 1)) hwf hold hnew

/-- move-right below the limit: the cursor, the tape and `pc` only. -/
theorem execMoveRight_of_below_cap {s : State} (h : ∀ c, s.cfg.tapeCap = some c → s.cur + 1 < c) :
    execMoveRight s = .next { s with cur := s.cur + 1, tape := s.movedRightTape, pc := s.pc + 1 } := by
  have hcap : s.atTapeCap = false := by
    rw [Bool.eq_false_iff, ne_eq, State.atTapeCap_iff]
    rintro ⟨c, hc, hle⟩
    exact absurd (h c hc) (Nat.not_lt.2 hle)
  rw [execMoveRight_next, State.growIfAtEnd_eq_setTape]
  exact .inr ⟨hcap, rfl⟩

/-- move-right at the limit: the failure, nothing else. -/
theorem execMoveRight_of_cap_le {s : State} {c : Nat} (hc : s.cfg.tapeCap = some c) (hle : c ≤ s.cur + 1) :
    execMoveRight s = .next (s.raise .tapeExhausted) :=
  (execMoveRight_next s _).2 (.inl ⟨s.atTapeCap_iff.2 ⟨c, hc, hle⟩, rfl⟩)

/-- Settles O26: the two answers of move-right, and what the tape after it holds below and above the old length. -/
theorem moveRightResult : Obligations.MoveRightResult := by
  unfold Obligations.MoveRightResult
  refine fun s _ => ⟨fun hbelow => ?_, fun c hc hle => ?_⟩
  · refine ⟨s.movedRightTape, execMoveRight_of_below_cap hbelow, fun hne => ?_, fun hend hc => ?_,
      fun c hend hc => ?_, fun a ha => s.movedRightTape_read_of_lt ha,
      fun hwf a hold hnew => State.movedRightTape_read_new hwf hold hnew⟩
    · rw [State.movedRightTape_len, if_neg hne]
    · rw [State.movedRightTape_len, if_pos hend, State.growthSize_of_unbounded hc]
    · rw [State.movedRightTape_len, if_pos hend, State.growthSize_of_cap hc]
  · exact ⟨s.raise .tapeExhausted, execMoveRight_of_cap_le hc hle, rfl, rfl, rfl, rfl⟩

/-- Settles O27: `cur - 1` on naturals is the clamp at 0. -/
theorem moveLeftResult : Obligations.MoveLeftResult := by
  unfold Obligations.MoveLeftResult
  refine fun s _ => ⟨fun _ => (execMoveLeft_next s _).2 rfl, fun h0 => (execMoveLeft_next s _).2 ?_⟩
  have hclamp : s.cur - 1 = s.cur := by omega
  rw [hclamp]

end Sys2Proof.Machine
end

section
/-! SUPPORT. The two arithmetic instructions (42_arithmetic.md): each stores to the current cell a value computed from
it modulo 256. -/

namespace Sys2Proof.Machine

theorem cellIncremented_toNat (v : Byte) : (cellIncremented v).toNat = (v.toNat + 1) % 256 :=
  BitVec.toNat_add v 1#8

theorem cellDecremented_toNat (v : Byte) : (cellDecremented v).toNat = (v.toNat + 255) % 256 :=
  BitVec.toNat_add v 255#8

/-- A store to an existing current cell: the tape and `pc` only, and on the tape that cell only. -/
theorem State.storeCell_result {s : State} (w : Byte) (h : s.cur < s.tape.len) :
    ∃ m, s.storeCell w = .next { s with tape := m, pc := s.pc + 1 } ∧ m.len = s.tape.len ∧
      m.read s.effectiveAddress = some w ∧ ∀ a, a ≠ s.effectiveAddress → m.read a = s.tape.read a :=
  ⟨s.tape.write s.cur w, s.storeCell_of_lt w h, s.tape.write_len s.cur w, s.tape.read_write_self w h,
    fun _ ha => s.tape.read_write_of_ne w ha⟩

theorem exec_increment_of_read {s : State} {v : Byte} (h : s.tape.read s.effectiveAddress = some v) :
    exec .increment s = s.storeCell (cellIncremented v) :=
  s.withCurrentCell_of_read _ h

theorem exec_decrement_of_read {s : State} {v : Byte} (h : s.tape.read s.effectiveAddress = some v) :
    exec .decrement s = s.storeCell (cellDecremented v) :=
  s.withCurrentCell_of_read _ h

/-- Settles O28: increment is a store to the current cell, and byte addition is addition modulo 256. -/
theorem incrementResult : Obligations.IncrementResult := by
  unfold Obligations.IncrementResult
  intro s v _ hv
  obtain ⟨m, hstore, hlen, hself, hframe⟩ := State.storeCell_result (cellIncremented v) (Memory.lt_of_read hv)
  exact ⟨m, (exec_increment_of_read hv).trans hstore, hlen, ⟨_, hself, cellIncremented_toNat v⟩, hframe⟩

/-- Settles O29: decrement is a store to the current cell, and adding 255 to a byte is subtracting 1 modulo 256. -/
theorem decrementResult : Obligations.DecrementResult := by
  unfold Obligations.DecrementResult
  intro s v _ hv
  obtain ⟨m, hstore, hlen, hself, hframe⟩ := State.storeCell_result (cellDecremented v) (Memory.lt_of_read hv)
  exact ⟨m, (exec_decrement_of_read hv).trans hstore, hlen, ⟨_, hself, cellDecremented_toNat v⟩, hframe⟩

end Sys2Proof.Machine
end

section
/-! SUPPORT. The two stream instructions (43_io.md): output by the environment's next answer, input by what the stream
still holds. -/

namespace Sys2Proof.Machine

theorem Env.nextAnswer_of_cons {e : Env} {a : OutAnswer} {rest : List OutAnswer} (h : e.outAns = a :: rest) :
    e.nextAnswer = some (a, { e with outAns := rest }) := by
  simp [Env.nextAnswer, h]

theorem Env.nextAnswer_of_nil {e : Env} {a : OutAnswer} (h : e.outAns = []) (hrest : e.outRest = some a) :
    e.nextAnswer = some (a, e) := by
  simp [Env.nextAnswer, h, hrest]

theorem Env.outWrite_of_accepted {e e' : Env} (b : Byte) (h : e.nextAnswer = some (.accepted, e')) :
    e.outWrite b = .accepted { e' with out := e'.out ++ [b] } := by
  simp [Env.outWrite, h]

theorem Env.outWrite_of_failed {e e' : Env} (b : Byte) (h : e.nextAnswer = some (.failed, e')) :
    e.outWrite b = .failed e' := by
  simp [Env.outWrite, h]

theorem Env.inRead_of_cons {e : Env} {b : Byte} {rest : List Byte} (h : e.inp = b :: rest) :
    e.inRead = .byte b { e with inp := rest } := by
  simp [Env.inRead, h]

theorem Env.inRead_of_closed {e : Env} (h : e.inp = []) (hclosed : e.inClosed = true) : e.inRead = .closed := by
  simp [Env.inRead, h, hclosed]

/-- An accepted write: the byte is logged and the instruction ends. -/
theorem exec_output_of_accepted {s : State} {v : Byte} {e : Env} (hv : s.tape.read s.effectiveAddress = some v)
    (he : s.env.nextAnswer = some (.accepted, e)) :
    exec .output s = .next { s with pc := s.pc + 1, env := { e with out := e.out ++ [v] } } := by
  simp only [exec, execOutput]
  rw [s.withCurrentCell_of_read _ hv, Env.outWrite_of_accepted v he]
  rfl

/-- A failed write: the run fails with the answer used up. -/
theorem exec_output_of_failed {s : State} {v : Byte} {e : Env} (hv : s.tape.read s.effectiveAddress = some v)
    (he : s.env.nextAnswer = some (.failed, e)) :
    exec .output s = .next ((s.setEnv e).raise .outputFailure) := by
  simp only [exec, execOutput]
  rw [s.withCurrentCell_of_read _ hv, Env.outWrite_of_failed v he]

/-- A delivered byte leaves the stream and is stored raw. -/
theorem exec_input_of_cons {s : State} {b : Byte} {rest : List Byte} (h : s.env.inp = b :: rest) :
    exec .input s = (s.setEnv { s.env with inp := rest }).storeCell b := by
  simp [exec, execInput, Env.inRead_of_cons h]

/-- A closed stream with nothing left: the failure, nothing else. -/
theorem exec_input_of_closed {s : State} (h : s.env.inp = []) (hclosed : s.env.inClosed = true) :
    exec .input s = .next (s.raise .inputExhausted) := by
  simp [exec, execInput, Env.inRead_of_closed h hclosed]

/-- Settles O30: the two answers a write can get, each from the list or standing. -/
theorem outputResult : Obligations.OutputResult := by
  unfold Obligations.OutputResult
  refine fun s v _ hv => ⟨fun rest hans => ?_, fun hans hrest => ?_, fun rest hans => ?_, fun hans hrest => ?_⟩
  · exact exec_output_of_accepted hv (Env.nextAnswer_of_cons hans)
  · exact exec_output_of_accepted hv (Env.nextAnswer_of_nil hans hrest)
  · exact ⟨_, exec_output_of_failed hv (Env.nextAnswer_of_cons hans), rfl, rfl⟩
  · exact ⟨_, exec_output_of_failed hv (Env.nextAnswer_of_nil hans hrest), rfl, rfl⟩

/-- Settles O31: a delivered byte is a store to the current cell after the stream has lost its front. -/
theorem inputResult : Obligations.InputResult := by
  unfold Obligations.InputResult
  refine fun s _ => ⟨fun b rest hinp hcell => ?_, fun hinp hclosed => ?_⟩
  · obtain ⟨m, hstore, hlen, hself, hframe⟩ :=
      State.storeCell_result (s := s.setEnv { s.env with inp := rest }) b hcell
    exact ⟨m, (exec_input_of_cons hinp).trans hstore, hlen, hself, hframe⟩
  · exact ⟨_, exec_input_of_closed hinp hclosed, rfl, rfl⟩

end Sys2Proof.Machine
end

section
/-! SUPPORT. The two conditional jumps (44_control.md): the current cell decides, and the jump table gives the target of
a jump that is taken. -/

namespace Sys2Proof.Machine

theorem openerTaken_iff (v : Byte) : openerTaken v = true ↔ v = 0#8 := beq_iff_eq

theorem closerTaken_iff (v : Byte) : closerTaken v = true ↔ v ≠ 0#8 := bne_iff_ne

/-- What the invariant guarantees of a running state. -/
theorem State.Inv.runInv {s : State} (h : s.Inv) (hp : s.phase = .running) : RunInv s := by
  have hphase := h.phaseOk
  simpa only [State.PhaseInv, hp] using hphase

/-- The current cell of a run exists (10_state.md R18). -/
theorem RunInv.exists_read {s : State} (h : RunInv s) : ∃ v, s.tape.read s.effectiveAddress = some v :=
  Option.isSome_iff_exists.1 ((Memory.read_isSome _ _).2 h.cell)

/-- Every closer of a whole table is paired with an index below it (30_encoding.md R61). -/
theorem TableInv.closer_paired_below {p : List Instr} {jt : JumpTable} {i : Nat} (h : TableInv p p.length jt)
    (hi : p[i]? = some .jumpIfNonzero) : ∃ j, jt.lookup i = some j ∧ j < i := by
  have hlt : i < p.length := (List.getElem?_eq_some_iff.1 hi).1
  obtain ⟨j, hj⟩ := h.closers i hlt hi
  obtain ⟨hopener, -, -⟩ | ⟨-, -, hbelow⟩ := h.directed i j hj
  · simp [hi] at hopener
  · exact ⟨j, hj, hbelow⟩

/-- An opener over a cell that is not 0 falls through. -/
theorem exec_jumpIfZero_of_ne_zero {s : State} {v : Byte} (hv : s.tape.read s.effectiveAddress = some v)
    (h0 : v ≠ 0#8) : exec .jumpIfZero s = .next s.advance := by
  have hnot : ¬ openerTaken v = true := (openerTaken_iff v).not.2 h0
  exact (s.withCurrentCell_of_read _ hv).trans (if_neg hnot)

/-- An opener over a zero cell is taken. -/
theorem exec_jumpIfZero_of_zero {s : State} {j : Nat} (hv : s.tape.read s.effectiveAddress = some 0#8)
    (hj : s.jt.lookup s.pc = some j) : exec .jumpIfZero s = .next (s.setPc j).advance := by
  simp only [exec, execJumpIfZero]
  rw [s.withCurrentCell_of_read _ hv, if_pos ((openerTaken_iff _).2 rfl), State.pairedIndex, hj]

/-- An opener over a zero cell with nowhere to go raises. -/
theorem exec_jumpIfZero_of_unpaired {s : State} (hv : s.tape.read s.effectiveAddress = some 0#8)
    (hj : s.jt.lookup s.pc = none) : exec .jumpIfZero s = .next (s.raise (.jumpTargetMissing s.pc)) := by
  simp only [exec, execJumpIfZero]
  rw [s.withCurrentCell_of_read _ hv, if_pos ((openerTaken_iff _).2 rfl), State.pairedIndex, hj]

/-- A closer over a zero cell falls through. -/
theorem exec_jumpIfNonzero_of_zero {s : State} (hv : s.tape.read s.effectiveAddress = some 0#8) :
    exec .jumpIfNonzero s = .next s.advance := by
  have hnot : ¬ closerTaken 0#8 = true := fun h => (closerTaken_iff _).1 h rfl
  exact (s.withCurrentCell_of_read _ hv).trans (if_neg hnot)

/-- A paired closer over a cell that is not 0 is taken. -/
theorem exec_jumpIfNonzero_of_ne_zero {s : State} {v : Byte} {j : Nat} (hv : s.tape.read s.effectiveAddress = some v)
    (h0 : v ≠ 0#8) (hj : s.jt.lookup s.pc = some j) : exec .jumpIfNonzero s = .next (s.setPc j).advance := by
  simp only [exec, execJumpIfNonzero]
  rw [s.withCurrentCell_of_read _ hv, if_pos ((closerTaken_iff v).2 h0), State.pairedIndex, hj]

/-- Over an existing cell, a closer with an entry answers in the phase it started from, whatever the cell holds. -/
theorem exec_jumpIfNonzero_keeps_phase {s : State} {v : Byte} {j : Nat}
    (hv : s.tape.read s.effectiveAddress = some v) (hj : s.jt.lookup s.pc = some j) :
    ∃ t, exec .jumpIfNonzero s = .next t ∧ t.phase = s.phase := by
  by_cases h0 : v = 0#8
  · subst h0
    exact ⟨_, exec_jumpIfNonzero_of_zero hv, rfl⟩
  · exact ⟨_, exec_jumpIfNonzero_of_ne_zero hv h0 hj, rfl⟩

/-- Settles O32: the test of the cell, then on zero the table's answer. -/
theorem jumpIfZeroResult : Obligations.JumpIfZeroResult := by
  unfold Obligations.JumpIfZeroResult
  refine fun s v _ hv => ⟨fun h0 => exec_jumpIfZero_of_ne_zero hv h0, fun j h0 hj => ?_, fun h0 hj => ?_⟩
  · subst h0
    exact exec_jumpIfZero_of_zero hv hj
  · subst h0
    exact ⟨_, exec_jumpIfZero_of_unpaired hv hj, rfl, rfl, rfl, rfl⟩

/-- Settles O33: the test of the cell; in a run the cell exists and the whole table pairs the closer with an opener
below it, so neither the model's fault nor a raise is reached. -/
theorem jumpIfNonzeroResult : Obligations.JumpIfNonzeroResult := by
  unfold Obligations.JumpIfNonzeroResult
  refine ⟨fun s v _ hv => ⟨fun h0 => ?_, fun j h0 hj => exec_jumpIfNonzero_of_ne_zero hv h0 hj⟩,
    fun s hinv hrun hcloser => ?_⟩
  · subst h0
    exact exec_jumpIfNonzero_of_zero hv
  · have hrunInv : RunInv s := hinv.runInv hrun
    obtain ⟨v, hv⟩ := hrunInv.exists_read
    obtain ⟨j, hj, hbelow⟩ := hrunInv.table.closer_paired_below hcloser
    obtain ⟨t, ht, hphase⟩ := exec_jumpIfNonzero_keeps_phase hv hj
    exact ⟨⟨j, hj, hbelow⟩, t, ht, hphase.trans hrun⟩

end Sys2Proof.Machine
end

section
/-! SUPPORT. Which instruction can raise which cause (60_exceptions.md R101). -/

namespace Sys2Proof.Machine

/-- R101's table: the cause an instruction can raise in a state, and the condition under which it can. -/
def State.MayRaise (s : State) (c : Cause) : Instr → Prop
  | .moveRight => c = .tapeExhausted ∧ ∃ n, s.cfg.tapeCap = some n
  | .jumpIfZero => c = .jumpTargetMissing s.pc ∧ s.jt.lookup s.pc = none ∧ s.tape.read s.effectiveAddress = some 0#8
  | .output => c = .outputFailure
  | .input => c = .inputExhausted
  | .moveLeft | .increment | .decrement | .jumpIfNonzero => False

/-- Each way an instruction can answer either stays in the phase or raises the instruction's own cause. -/
theorem exec_next_phase {i : Instr} {s t : State} (h : exec i s = .next t) :
    t.phase = s.phase ∨ ∃ c, t.phase = .failed c ∧ s.MayRaise c i := by
  cases i with
  | moveRight =>
    obtain ⟨hcap, rfl⟩ | ⟨-, rfl⟩ := (execMoveRight_next s t).1 h
    · obtain ⟨n, hn, -⟩ := s.atTapeCap_iff.1 hcap
      exact .inr ⟨_, rfl, rfl, n, hn⟩
    · exact .inl (by simp)
  | moveLeft =>
    obtain rfl := (execMoveLeft_next s t).1 h
    exact .inl rfl
  | increment =>
    obtain ⟨v, -, -, rfl⟩ := (execIncrement_next s t).1 h
    exact .inl rfl
  | decrement =>
    obtain ⟨v, -, -, rfl⟩ := (execDecrement_next s t).1 h
    exact .inl rfl
  | output =>
    obtain ⟨v, -, ⟨ans, rfl⟩ | ⟨ans, rfl⟩ | ⟨-, -, rfl⟩⟩ := execOutput_next s t h
    · exact .inl rfl
    · exact .inr ⟨_, rfl, rfl⟩
    · exact .inl rfl
  | input =>
    obtain ⟨b, rest, -, -, rfl⟩ | ⟨-, -, rfl⟩ | ⟨-, -, rfl⟩ := execInput_next s t h
    · exact .inl rfl
    · exact .inr ⟨_, rfl, rfl⟩
    · exact .inl rfl
  | jumpIfZero =>
    obtain ⟨v, hv, ⟨-, rfl⟩ | ⟨-, j, -, rfl⟩ | ⟨rfl, hj, rfl⟩⟩ := execJumpIfZero_next s t h
    · exact .inl rfl
    · exact .inl rfl
    · exact .inr ⟨_, rfl, rfl, hj, hv⟩
  | jumpIfNonzero =>
    obtain ⟨v, -, ⟨-, rfl⟩ | ⟨-, j, -, rfl⟩⟩ := execJumpIfNonzero_next s t h
    · exact .inl rfl
    · exact .inl rfl

/-- An instruction that fails from a running state has raised a cause of its own. -/
theorem mayRaise_of_exec_failed {i : Instr} {s t : State} {c : Cause} (hrun : s.phase = .running)
    (h : exec i s = .next t) (hc : t.phase = .failed c) : s.MayRaise c i := by
  obtain hkeep | ⟨c', hc', hraise⟩ := exec_next_phase h
  · simp [hkeep, hrun] at hc
  · obtain rfl : c' = c := by simpa [hc] using hc'.symm
    exact hraise

/-- A fetch past the end of the program halts the run (40_execution_cycle.md R71). -/
theorem step_of_no_instruction {s : State} (hr : s.env.rst = none) (hrun : s.phase = .running)
    (hend : s.prog[s.pc]? = none) : step s = .next s.halt := by
  simp only [step, engineStep, State.fetch, hr, hrun, hend]

/-- Settles O38: the instructions by R101's table, and the fetch, which halts. -/
theorem eachInstructionRaisesOnlyItsOwnCause : Obligations.EachInstructionRaisesOnlyItsOwnCause := by
  unfold Obligations.EachInstructionRaisesOnlyItsOwnCause
  refine ⟨fun i s t c hrun h hc => ?_, fun s hr hrun hend t c h => ?_⟩
  · have hraise : s.MayRaise c i := mayRaise_of_exec_failed hrun h hc
    cases i with
    | moveRight => exact .inl ⟨rfl, hraise⟩
    | jumpIfZero => exact .inr (.inl ⟨rfl, hraise⟩)
    | output => exact .inr (.inr (.inl ⟨rfl, hraise⟩))
    | input => exact .inr (.inr (.inr ⟨rfl, hraise⟩))
    | moveLeft | increment | decrement | jumpIfNonzero => exact hraise.elim
  · cases (step_of_no_instruction hr hrun hend).symm.trans h
    simp

end Sys2Proof.Machine
end

section
/-! SUPPORT. Run start (70_reset_and_hazards.md R131 step 5): the step after a scan that succeeded. -/

namespace Sys2Proof.Machine

/-- Every cell of a fresh tape reads 0 (10_state.md R13). -/
theorem Memory.read_zeros_of_lt {a n : Nat} (h : a < n) : (Memory.zeros n).read a = some 0#8 :=
  (Memory.read_eq_some _ _ _).2 ⟨h, rfl⟩

/-- The end of the scan gives the table when nothing is pending, or when pending openers are allowed. -/
theorem finishScan_of_accepted {strict : Bool} {b : Builder} (h : b.bstk = [] ∨ strict = false) :
    finishScan strict b = .ok b.jt := by
  obtain hnil | rfl := h
  · exact finishScan_of_bstk_nil strict hnil
  · exact finishScan_false b

/-- Past the last opcode, the builder starts the run when it accepts what is pending. -/
theorem State.buildStep_length_of_accepted {s : State} (h : s.bstk = [] ∨ s.cfg.strictOpeners = false) :
    s.buildStep s.prog.length = s.runStart := by
  have hend : s.prog[s.prog.length]? = none := List.getElem?_eq_none (Nat.le_refl _)
  simp only [State.buildStep, hend, finishScan_of_accepted (b := { jt := s.jt, bstk := s.bstk }) h]

/-- Without a reset to serve, a step of the load phase is the step of its stage. -/
theorem step_of_loading {s : State} {stage : LoadStage} (hr : s.env.rst = none) (hp : s.phase = .loading stage) :
    step s = .next (s.loadStep stage) := by
  simp only [step, hr, hp]

/-- Settles O18: the step after the last scanned opcode is run start, whose tape is fresh. -/
theorem runStartsOnAFreshTape : Obligations.RunStartsOnAFreshTape := by
  unfold Obligations.RunStartsOnAFreshTape
  intro s hr hp haccepted
  have hstep : step s = .next s.runStart :=
    (step_of_loading hr hp).trans (congrArg _ (State.buildStep_length_of_accepted haccepted))
  exact ⟨s.runStart, hstep, rfl, rfl, fun _ ha => Memory.read_zeros_of_lt ha, rfl, rfl, rfl, rfl, rfl, rfl, rfl⟩

end Sys2Proof.Machine
end

section
/-! SUPPORT. The rules of the step that the laws of runs are built from: what `step` answers in each phase, and how
`runSteps` and `execSeq` go on. -/

namespace Sys2Proof.Machine

/-- A pending reset is served before anything else. -/
theorem step_of_reset {s : State} {r : ResetRequest} (hr : s.env.rst = some r) : step s = .next (s.doReset r) := by
  simp only [step, hr]

/-- In a run the instruction at `pc` is executed. -/
theorem step_of_fetched {s : State} {i : Instr} (hr : s.env.rst = none) (hrun : s.phase = .running)
    (hi : s.prog[s.pc]? = some i) : step s = exec i s := by
  simp only [step, engineStep, State.fetch, hr, hrun, hi]

theorem step_of_halted {s : State} (hr : s.env.rst = none) (hp : s.phase = .halted) : step s = .next s := by
  simp only [step, hr, hp]

theorem step_of_failed {s : State} {c : Cause} (hr : s.env.rst = none) (hp : s.phase = .failed c) :
    step s = .next s := by
  simp only [step, hr, hp]

@[simp] theorem runSteps_zero (s : State) : runSteps 0 s = .next s := rfl

theorem runSteps_succ_of_step {s t : State} (n : Nat) (h : step s = .next t) :
    runSteps (n + 1) s = runSteps n t := by
  simp only [runSteps, h]

/-- Steps taken one after another add up. -/
theorem runSteps_add {m : Nat} (n : Nat) {s t : State} (h : runSteps m s = .next t) :
    runSteps (m + n) s = runSteps n t := by
  induction m generalizing s with
  | zero =>
    cases h
    rw [Nat.zero_add]
  | succ m ih =>
    rw [Nat.succ_add]
    cases hs : step s with
    | next s' =>
      rw [runSteps_succ_of_step _ hs] at h ⊢
      exact ih h
    | fault r => simp [runSteps, hs] at h
    | refused r => simp [runSteps, hs] at h

/-- A state that a step leaves as it is stays for ever. -/
theorem runSteps_of_step_self {s : State} (h : step s = .next s) (n : Nat) : runSteps n s = .next s := by
  induction n with
  | zero => rfl
  | succ n ih => rw [runSteps_succ_of_step n h, ih]

/-- A failed state waits for a reset (log 11). -/
theorem runSteps_of_failed {s : State} {c : Cause} (hr : s.env.rst = none) (hp : s.phase = .failed c) (n : Nat) :
    runSteps n s = .next s :=
  runSteps_of_step_self (step_of_failed hr hp) n

/-- A load step that raises ends the load for good: the failed state is answered, with the streams untouched, and
every later step leaves it. -/
theorem raise_of_loading_is_final {s : State} {stage : LoadStage} {c : Cause} (hr : s.env.rst = none)
    (hp : s.phase = .loading stage) (h : s.loadStep stage = s.raise c) :
    ∃ t, step s = .next t ∧ t.phase = .failed c ∧ t.env = s.env ∧
      ∀ n, ∃ u, runSteps n t = .next u ∧ u.phase = t.phase ∧ u.env = s.env := by
  refine ⟨s.raise c, (step_of_loading hr hp).trans (congrArg _ h), rfl, rfl, fun n => ⟨s.raise c, ?_, rfl, rfl⟩⟩
  exact runSteps_of_failed (s := s.raise c) hr rfl n

theorem execSeq_cons_of_exec {i : Instr} {s t : State} (l : List Instr) (h : exec i s = .next t) :
    execSeq (i :: l) s = execSeq l t := by
  simp only [execSeq, h]

/-- A sequence goes on where a shorter one ended. -/
theorem execSeq_append {l : List Instr} (l' : List Instr) {s t : State} (h : execSeq l s = .next t) :
    execSeq (l ++ l') s = execSeq l' t := by
  induction l generalizing s with
  | nil =>
    cases h
    rfl
  | cons i l ih =>
    cases hs : exec i s with
    | next s' =>
      rw [execSeq_cons_of_exec l hs] at h
      rw [List.cons_append, execSeq_cons_of_exec _ hs]
      exact ih h
    | fault r => simp [execSeq, hs] at h
    | refused r => simp [execSeq, hs] at h

/-- Settles O19: it is the rule of the step for a fetched instruction. -/
theorem stepRunsTheFetchedInstruction : Obligations.StepRunsTheFetchedInstruction := by
  unfold Obligations.StepRunsTheFetchedInstruction
  exact fun s i hr hrun hi => step_of_fetched hr hrun hi

/-- Settles O21: with an instruction at `pc` the step is that instruction, which never halts; without one it halts. -/
theorem haltsExactlyAtProgramEnd : Obligations.HaltsExactlyAtProgramEnd := by
  unfold Obligations.HaltsExactlyAtProgramEnd
  intro s hr hrun
  have hhalt : s.prog.length ≤ s.pc → step s = .next s.halt := fun hend =>
    step_of_no_instruction hr hrun (List.getElem?_eq_none hend)
  refine ⟨⟨fun ⟨t, ht, hphase⟩ => ?_, fun hend => ⟨s.halt, hhalt hend, rfl⟩⟩, fun hend n => ?_⟩
  · by_contra hlt
    obtain ⟨i, hi⟩ : ∃ i, s.prog[s.pc]? = some i := ⟨_, List.getElem?_eq_getElem (Nat.lt_of_not_le hlt)⟩
    obtain hkeep | ⟨c, hc, -⟩ := exec_next_phase ((step_of_fetched hr hrun hi).symm.trans ht)
    · simp [hphase, hrun] at hkeep
    · simp [hphase] at hc
  · rw [runSteps_succ_of_step n (hhalt hend)]
    exact runSteps_of_step_self (step_of_halted (s := s.halt) hr rfl) n

/-- Settles O22: a step in either terminal phase leaves the state as it is. -/
theorem terminalPhaseWaitsForReset : Obligations.TerminalPhaseWaitsForReset := by
  unfold Obligations.TerminalPhaseWaitsForReset
  refine fun s hr n => ⟨fun hp => runSteps_of_step_self (step_of_halted hr hp) n, fun c hp => ?_⟩
  exact ⟨s, runSteps_of_failed hr hp n, .refl s⟩

/-- Settles O24: the two states are the same for claims, and runs keep that. -/
theorem failedRunIsNeverRead : Obligations.FailedRunIsNeverRead := by
  unfold Obligations.FailedRunIsNeverRead
  intro s c m cur pc hp n
  have hsame : State.SameForClaims { s with tape := m, cur := cur, pc := pc } s :=
    ⟨rfl, rfl, rfl, rfl, rfl, rfl, rfl, fun hnot => absurd hp (hnot c)⟩
  obtain ⟨hnext, hfault⟩ := runSteps_sameForClaims n hsame
  refine ⟨fun t ht => ?_, hfault⟩
  obtain ⟨u, hu, husame⟩ := hnext t ht
  exact ⟨u, hu, husame, husame.status_eq, husame.result_eq⟩

end Sys2Proof.Machine
end

section
/-! SUPPORT. The encoding and the Loader/Filter as a whole function (30_encoding.md R50 to R56). -/

namespace Sys2Proof.Machine

/-- Decoding undoes encoding (30_encoding.md R51). -/
theorem decodeByte_encodeByte (i : Instr) : decodeByte (encodeByte i) = .opcode i := by
  cases i <;> rfl

/-- Only its own encoding selects an opcode: each test of the decoder compares with the byte it answers for. -/
theorem encodeByte_of_decodeByte {b : Byte} {i : Instr} (h : decodeByte b = .opcode i) : encodeByte i = b := by
  cases i with
  | moveRight => exact ((Laws.DecodeExact.moveRight b).1 h).symm
  | moveLeft => exact ((Laws.DecodeExact.moveLeft b).1 h).symm
  | increment => exact ((Laws.DecodeExact.increment b).1 h).symm
  | decrement => exact ((Laws.DecodeExact.decrement b).1 h).symm
  | output => exact ((Laws.DecodeExact.output b).1 h).symm
  | input => exact ((Laws.DecodeExact.input b).1 h).symm
  | jumpIfZero => exact ((Laws.DecodeExact.jumpIfZero b).1 h).symm
  | jumpIfNonzero => exact ((Laws.DecodeExact.jumpIfNonzero b).1 h).symm

theorem opcodeOf_of_opcode {b : Byte} {i : Instr} (h : decodeByte b = .opcode i) : opcodeOf b = some i := by
  simp only [opcodeOf, h]

theorem opcodeOf_of_commentary {b : Byte} (h : decodeByte b = .commentary) : opcodeOf b = none := by
  simp only [opcodeOf, h]

theorem filterByte_of_commentary {b : Byte} (cap : Option Nat) (prog : List Instr)
    (h : decodeByte b = .commentary) : filterByte cap prog b = .ok prog := by
  simp only [filterByte, h]

theorem filterByte_of_room {b : Byte} {i : Instr} {cap : Option Nat} {prog : List Instr}
    (h : decodeByte b = .opcode i) (hroom : progFull cap prog.length = false) :
    filterByte cap prog b = .ok (prog ++ [i]) := by
  simp [filterByte, h, hroom]

theorem filterByte_of_full {b : Byte} {i : Instr} {cap : Option Nat} {prog : List Instr}
    (h : decodeByte b = .opcode i) (hfull : progFull cap prog.length = true) :
    filterByte cap prog b = .error .programStoreExhausted := by
  simp [filterByte, h, hfull]

theorem filterFrom_cons_of_ok {cap : Option Nat} {prog prog' : List Instr} {b : Byte} (src : List Byte)
    (h : filterByte cap prog b = .ok prog') : filterFrom cap prog (b :: src) = filterFrom cap prog' src := by
  simp only [filterFrom, h]

theorem filterFrom_cons_of_error {cap : Option Nat} {prog : List Instr} {b : Byte} {c : Cause} (src : List Byte)
    (h : filterByte cap prog b = .error c) : filterFrom cap prog (b :: src) = .error c := by
  simp only [filterFrom, h]

/-- The store has room exactly when it is below a finite capacity. -/
theorem progFull_eq_false_iff (cap : Option Nat) (n : Nat) :
    progFull cap n = false ↔ ∀ c, cap = some c → n < c := by
  cases cap <;> simp [progFull]

theorem progFull_some_of_le {c n : Nat} (h : c ≤ n) : progFull (some c) n = true :=
  decide_eq_true h

/-- Where all opcodes still to come fit, the filter appends them in order. -/
theorem filterFrom_of_fits {cap : Option Nat} {prog : List Instr} {src : List Byte}
    (h : ∀ c, cap = some c → prog.length + (src.filterMap opcodeOf).length ≤ c) :
    filterFrom cap prog src = .ok (prog ++ src.filterMap opcodeOf) := by
  induction src generalizing prog with
  | nil => simp [filterFrom]
  | cons b src ih =>
    cases hb : decodeByte b with
    | commentary =>
      simp only [List.filterMap_cons, opcodeOf_of_commentary hb] at h ⊢
      rw [filterFrom_cons_of_ok src (filterByte_of_commentary cap prog hb)]
      exact ih h
    | opcode i =>
      simp only [List.filterMap_cons, opcodeOf_of_opcode hb, List.length_cons] at h ⊢
      have hroom : progFull cap prog.length = false :=
        (progFull_eq_false_iff _ _).2 fun c hc => by have := h c hc; omega
      rw [filterFrom_cons_of_ok src (filterByte_of_room hb hroom), ih, List.append_assoc, List.singleton_append]
      intro c hc
      have := h c hc
      rw [List.length_append, List.length_singleton]
      omega

/-- Where they do not all fit, the filter fails at the first that does not. -/
theorem filterFrom_of_not_fits {c : Nat} {prog : List Instr} {src : List Byte} (hprog : prog.length ≤ c)
    (h : c < prog.length + (src.filterMap opcodeOf).length) :
    filterFrom (some c) prog src = .error .programStoreExhausted := by
  induction src generalizing prog with
  | nil =>
    simp only [List.filterMap_nil, List.length_nil] at h
    omega
  | cons b src ih =>
    cases hb : decodeByte b with
    | commentary =>
      simp only [List.filterMap_cons, opcodeOf_of_commentary hb] at h
      rw [filterFrom_cons_of_ok src (filterByte_of_commentary _ prog hb)]
      exact ih hprog h
    | opcode i =>
      simp only [List.filterMap_cons, opcodeOf_of_opcode hb, List.length_cons] at h
      by_cases hfull : c ≤ prog.length
      · exact filterFrom_cons_of_error src (filterByte_of_full hb (progFull_some_of_le hfull))
      · have hroom : progFull (some c) prog.length = false := decide_eq_false hfull
        rw [filterFrom_cons_of_ok src (filterByte_of_room hb hroom)]
        apply ih
        · rw [List.length_append, List.length_singleton]
          omega
        · rw [List.length_append, List.length_singleton]
          omega

/-- With an unbounded store everything fits. -/
theorem filterSource_none (src : List Byte) : filterSource none src = .ok (src.filterMap opcodeOf) :=
  filterFrom_of_fits (prog := []) (by simp)

/-- Commentary selects nothing. -/
theorem filterMap_opcodeOf_of_commentary {l : List Byte} (h : ∀ b ∈ l, decodeByte b = .commentary) :
    l.filterMap opcodeOf = [] :=
  List.filterMap_eq_nil_iff.2 fun b hb => opcodeOf_of_commentary (h b hb)

/-- The opcodes of a commented text are the program it was written from. -/
theorem filterMap_opcodeOf_commentedText {l : List (List Byte × Instr)} {tail : List Byte}
    (hl : ∀ e ∈ l, ∀ b ∈ e.1, decodeByte b = .commentary) (htail : ∀ b ∈ tail, decodeByte b = .commentary) :
    (commentedText l tail).filterMap opcodeOf = l.map Prod.snd := by
  induction l with
  | nil => exact filterMap_opcodeOf_of_commentary htail
  | cons e l ih =>
    have hcomment : e.1.filterMap opcodeOf = [] := filterMap_opcodeOf_of_commentary (hl e List.mem_cons_self)
    have hcode : opcodeOf (encodeByte e.2) = some e.2 := opcodeOf_of_opcode (decodeByte_encodeByte e.2)
    have hrest := ih fun e' he' => hl e' (List.mem_cons_of_mem _ he')
    simp only [commentedText, List.filterMap_append] at hrest
    simp [commentedText, hcomment, hcode, hrest]

/-- One step of the filter stage is one iteration on its byte (log 10). -/
theorem step_of_filter_ok {s : State} {k : Nat} {b : Byte} {prog : List Instr} (hr : s.env.rst = none)
    (hp : s.phase = .loading (.filter k)) (hb : s.src[k]? = some b)
    (h : filterByte s.cfg.progCap s.prog b = .ok prog) :
    step s = .next { s with prog := prog, phase := .loading (.filter (k + 1)) } := by
  rw [step_of_loading hr hp]
  simp only [State.loadStep, State.filterStep, hb, h]

theorem State.filterStep_of_error {s : State} {k : Nat} {b : Byte} {c : Cause} (hb : s.src[k]? = some b)
    (h : filterByte s.cfg.progCap s.prog b = .error c) : s.filterStep k = s.raise c := by
  simp only [State.filterStep, hb, h]

/-- Settles O1: the rows of R51 are the decoder's own tests. -/
theorem opcodeBytesDecode : Obligations.OpcodeBytesDecode := by
  unfold Obligations.OpcodeBytesDecode
  decide

/-- Settles O2: a byte that decoded to an opcode would be its encoding. -/
theorem commentaryBytesAreDropped : Obligations.CommentaryBytesAreDropped := by
  unfold Obligations.CommentaryBytesAreDropped
  intro b hb
  have hcomment : decodeByte b = .commentary := by
    cases h : decodeByte b with
    | commentary => rfl
    | opcode i => exact absurd (encodeByte_of_decodeByte h) (hb i)
  exact ⟨hcomment, fun cap prog => filterByte_of_commentary cap prog hcomment⟩

/-- Settles O3: an encoding is one byte, and `decode` looks at one. -/
theorem encodedInstructionDecodesToItself : Obligations.EncodedInstructionDecodesToItself := by
  unfold Obligations.EncodedInstructionDecodesToItself
  refine fun i rest => ⟨rfl, ?_⟩
  simp only [encode, List.singleton_append, decode, decodeByte_encodeByte]

/-- Settles O4: the filter keeps the opcodes of the text, which are the program. -/
theorem commentedProgramTextLoadsAsTheProgram : Obligations.CommentedProgramTextLoadsAsTheProgram := by
  unfold Obligations.CommentedProgramTextLoadsAsTheProgram
  intro l tail hl htail
  rw [filterSource_none, filterMap_opcodeOf_commentedText hl htail]

/-- Settles O5: the filter with an unbounded store, where everything fits. -/
theorem filterKeepsExactlyTheOpcodesInOrder : Obligations.FilterKeepsExactlyTheOpcodesInOrder := by
  unfold Obligations.FilterKeepsExactlyTheOpcodesInOrder
  exact filterSource_none

/-- Settles O6: the whole function by whether everything fits, the step by the iteration that raises. -/
theorem fullProgramStoreFailsTheLoad : Obligations.FullProgramStoreFailsTheLoad := by
  unfold Obligations.FullProgramStoreFailsTheLoad
  refine ⟨fun c src => ?_, fun s k c b i hr hp hb hi hc hle => ?_, fun src => ?_⟩
  · split
    · next hfits => exact filterFrom_of_fits (prog := []) (by simpa using hfits)
    · next hnot => exact filterFrom_of_not_fits (Nat.zero_le c) (by simpa using hnot)
  · have hfull : progFull s.cfg.progCap s.prog.length = true := hc ▸ progFull_some_of_le hle
    exact raise_of_loading_is_final hr hp (State.filterStep_of_error hb (filterByte_of_full hi hfull))
  · rw [filterSource_none]
    exact fun h => by cases h

/-- Settles O7: one iteration of the filter, by what the byte decodes to. -/
theorem loaderStoresTheDecodedOpcode : Obligations.LoaderStoresTheDecodedOpcode := by
  unfold Obligations.LoaderStoresTheDecodedOpcode
  refine fun s k b hr hp hb => ⟨fun i hi hroom => ?_, fun hcomment => ?_⟩
  · exact step_of_filter_ok hr hp hb (filterByte_of_room hi ((progFull_eq_false_iff _ _).2 hroom))
  · exact step_of_filter_ok hr hp hb (filterByte_of_commentary _ _ hcomment)

end Sys2Proof.Machine
end

section
/-! SUPPORT. The Jump Table Builder as a whole function: the properties of the table it gives (30_encoding.md R57 to
R61). -/

namespace Sys2Proof.Machine

/-- A build that succeeds is a scan that succeeds, and a strict one leaves nothing pending. -/
theorem scan_of_buildTable_ok {strict : Bool} {p : List Instr} {jt : JumpTable} (h : buildTable strict p = .ok jt) :
    ∃ bstk, scanFrom 0 { jt := [], bstk := [] } p = .ok { jt := jt, bstk := bstk } ∧
      (strict = true → bstk = []) := by
  cases hs : scanFrom 0 { jt := [], bstk := [] } p with
  | error c => simp [buildTable_of_scan_error strict hs] at h
  | ok b =>
    rw [buildTable_of_scan_ok strict hs] at h
    obtain ⟨haccepted, hfin⟩ | ⟨top, rest, -, -, hfin⟩ := finishScan_cases strict b
    · rw [hfin] at h
      cases h
      exact ⟨b.bstk, rfl, fun hstrict => haccepted.resolve_right (by simp [hstrict])⟩
    · simp [hfin] at h

theorem tableInv_of_buildTable {strict : Bool} {p : List Instr} {jt : JumpTable} (h : buildTable strict p = .ok jt) :
    TableInv p p.length jt := by
  obtain ⟨bstk, hs, -⟩ := scan_of_buildTable_ok h
  exact tableInv_of_scan hs

/-- With nothing pending every opener has its entry (30_encoding.md R61 item 4). -/
theorem BuilderInv.opener_paired {p : List Instr} {jt : JumpTable} (h : BuilderInv p p.length jt []) {i : Nat}
    (hi : p[i]? = some .jumpIfZero) : ∃ j, jt.lookup i = some j := by
  cases hl : jt.lookup i with
  | some j => exact ⟨j, rfl⟩
  | none =>
    have hlt : i < p.length := (List.getElem?_eq_some_iff.1 hi).1
    have hmem : i ∈ ([] : List Nat) := (h.pending i).2 ⟨hlt, hi, hl⟩
    cases hmem

/-- A closer met with an empty stack ends the scan with its index (30_encoding.md R58). -/
theorem scanFrom_closer_of_bstk_nil (i : Nat) {b : Builder} (rest : List Instr) (hb : b.bstk = []) :
    scanFrom i b (.jumpIfNonzero :: rest) = .error (.unbalancedBracket i) := by
  simp [scanFrom, scanOpcode, hb]

theorem State.buildStep_of_error {s : State} {i : Nat} {op : Instr} {c : Cause} (hi : s.prog[i]? = some op)
    (h : scanOpcode i op { jt := s.jt, bstk := s.bstk } = .error c) : s.buildStep i = s.raise c := by
  simp only [State.buildStep, hi, h]

/-- Settles O8: the scan of what stands before the closer leaves nothing pending, and goes on at the closer. -/
theorem firstUnbalancedCloserFailsTheLoad : Obligations.FirstUnbalancedCloserFailsTheLoad := by
  unfold Obligations.FirstUnbalancedCloserFailsTheLoad
  refine ⟨fun strict p i hi hbalanced => ?_, fun s i hr hp hi hb => ?_⟩
  · obtain ⟨b, hs, hlen⟩ := scan_ok_of_pending hbalanced
    obtain ⟨hlt, hget⟩ := List.getElem?_eq_some_iff.1 hi
    have hdrop : p.drop i = .jumpIfNonzero :: p.drop (i + 1) := by rw [List.drop_eq_getElem_cons hlt, hget]
    apply buildTable_of_scan_error
    rw [← List.take_append_drop i p, scanFrom_append _ _ _ _ _ hs, hdrop,
      scanFrom_closer_of_bstk_nil _ _ (List.eq_nil_of_length_eq_zero hlen), List.length_take,
      Nat.min_eq_left (Nat.le_of_lt hlt), Nat.zero_add]
  · exact raise_of_loading_is_final hr hp (State.buildStep_of_error hi (by simp [scanOpcode, hb]))

/-- Settles O11: a balanced program leaves the stack empty, so that either setting accepts it. -/
theorem wellFormedProgramPairsEveryOpener : Obligations.WellFormedProgramPairsEveryOpener := by
  unfold Obligations.WellFormedProgramPairsEveryOpener
  intro strict p hwf
  obtain ⟨b, hs, hlen⟩ := scan_ok_of_pending (beq_iff_eq.1 hwf)
  have hnil : b.bstk = [] := List.eq_nil_of_length_eq_zero hlen
  have hinv : BuilderInv p p.length b.jt [] := hnil ▸ builderInv_of_scan hs
  refine ⟨b.jt, ?_, fun i hi => hinv.opener_paired hi⟩
  rw [buildTable_of_scan_ok strict hs, finishScan_of_bstk_nil strict hnil]

/-- Settles O12: the builder's invariant at the end of the scan, with an empty stack when the build is strict. -/
theorem builtTableIsSymmetricAndDirected : Obligations.BuiltTableIsSymmetricAndDirected := by
  unfold Obligations.BuiltTableIsSymmetricAndDirected
  intro strict p jt h
  obtain ⟨bstk, hs, hnil⟩ := scan_of_buildTable_ok h
  have hinv : BuilderInv p p.length jt bstk := builderInv_of_scan hs
  refine ⟨fun i j hij => ?_, fun i hi => ?_, fun hstrict i hi => ?_⟩
  · obtain ⟨hi, hj⟩ := hinv.table.inRange i j hij
    exact ⟨hinv.table.symm i j hij, hi, hj, hinv.table.directed i j hij⟩
  · obtain ⟨j, hj, -⟩ := hinv.table.closer_paired_below hi
    exact ⟨j, hj⟩
  · rw [hnil hstrict] at hinv
    exact hinv.opener_paired hi

/-- Settles O13: both are part of the invariant the scan keeps. -/
theorem builtTablePairsNest : Obligations.BuiltTablePairsNest := by
  unfold Obligations.BuiltTablePairsNest
  intro strict p jt h
  have hinv : TableInv p p.length jt := tableInv_of_buildTable h
  refine ⟨hinv.nested, fun k hk => hinv.unspanned k ?_ hk⟩
  exact (List.getElem?_eq_some_iff.1 hk).1

end Sys2Proof.Machine
end

section
/-! SUPPORT. The closed form of the jump table (30_encoding.md R61 item 7). The scan keeps track of how many more
openers than closers stand between an opener and the scan's place: for an opener on the stack that number is its place
from the top, counted from 1, and has been positive all along; it reaches 0 first at the closer that pops the
opener. -/

namespace Sys2Proof.Machine

/-- How many more openers than closers stand at the indices from `i` up to `n`, `n` excluded. -/
def bracketExcess (p : List Instr) (i n : Nat) : Int :=
  ((p.drop i).take (n - i)).count .jumpIfZero - ((p.drop i).take (n - i)).count .jumpIfNonzero

theorem evenBetween_iff_bracketExcess (p : List Instr) (i j : Nat) :
    evenBetween p i j ↔ bracketExcess p i (j + 1) = 0 := by
  simp only [evenBetween, between, bracketExcess]
  omega

@[simp] theorem bracketExcess_self (p : List Instr) (i : Nat) : bracketExcess p i i = 0 := by
  simp [bracketExcess]

/-- The stretch grows at its end by the opcode there. -/
theorem take_drop_succ {p : List Instr} {i n : Nat} {op : Instr} (hi : i ≤ n) (hop : p[n]? = some op) :
    (p.drop i).take (n + 1 - i) = (p.drop i).take (n - i) ++ [op] := by
  rw [Nat.succ_sub hi, List.take_add_one, List.getElem?_drop, Nat.add_sub_cancel' hi, hop, Option.toList_some]

/-- How an opcode changes the excess. -/
def bracketWeight : Instr → Int
  | .jumpIfZero => 1
  | .jumpIfNonzero => -1
  | .moveRight | .moveLeft | .increment | .decrement | .output | .input => 0

theorem count_singleton_sub_eq_bracketWeight (op : Instr) :
    (([op].count .jumpIfZero : Nat) : Int) - ([op].count .jumpIfNonzero : Nat) = bracketWeight op := by
  cases op <;> rfl

theorem bracketExcess_succ {p : List Instr} {i n : Nat} {op : Instr} (hi : i ≤ n) (hop : p[n]? = some op) :
    bracketExcess p i (n + 1) = bracketExcess p i n + bracketWeight op := by
  have hweight := count_singleton_sub_eq_bracketWeight op
  rw [bracketExcess, take_drop_succ hi hop, List.count_append, List.count_append, bracketExcess]
  omega

theorem bracketWeight_of_other {op : Instr} (h1 : op ≠ .jumpIfZero) (h2 : op ≠ .jumpIfNonzero) :
    bracketWeight op = 0 := by
  cases op with
  | jumpIfZero => exact absurd rfl h1
  | jumpIfNonzero => exact absurd rfl h2
  | _ => rfl

theorem bracketExcess_opener {p : List Instr} {i n : Nat} (hi : i ≤ n) (hop : p[n]? = some .jumpIfZero) :
    bracketExcess p i (n + 1) = bracketExcess p i n + 1 :=
  bracketExcess_succ hi hop

theorem bracketExcess_closer {p : List Instr} {i n : Nat} (hi : i ≤ n) (hop : p[n]? = some .jumpIfNonzero) :
    bracketExcess p i (n + 1) = bracketExcess p i n - 1 :=
  bracketExcess_succ hi hop

theorem bracketExcess_other {p : List Instr} {i n : Nat} {op : Instr} (hi : i ≤ n) (hop : p[n]? = some op)
    (h1 : op ≠ .jumpIfZero) (h2 : op ≠ .jumpIfNonzero) : bracketExcess p i (n + 1) = bracketExcess p i n := by
  rw [bracketExcess_succ hi hop, bracketWeight_of_other h1 h2, Int.add_zero]

/-- No place after the opener `i` up to `n` has as many closers as openers. -/
def StaysOpen (p : List Instr) (i n : Nat) : Prop := ∀ m, i < m → m ≤ n → 0 < bracketExcess p i m

/-- It stays so where the excess is positive at the next place too. -/
theorem StaysOpen.succ {p : List Instr} {i n : Nat} (h : StaysOpen p i n) (hpos : 0 < bracketExcess p i (n + 1)) :
    StaysOpen p i (n + 1) := by
  intro m him hm
  obtain hle | rfl : m ≤ n ∨ m = n + 1 := by omega
  · exact h m him hle
  · exact hpos

/-- What the scan knows of the excess before index `n`: of each opener on the stack, by its place `a` from the top, and
of each pair recorded. -/
structure ExcessInv (p : List Instr) (n : Nat) (b : Builder) : Prop where
  pending : ∀ (a k : Nat), b.bstk[a]? = some k → k < n ∧ bracketExcess p k n = a + 1 ∧ StaysOpen p k n
  paired : ∀ i j, b.jt.lookup i = some j → i < j → bracketExcess p i (j + 1) = 0 ∧ StaysOpen p i j

theorem excessInv_start (p : List Instr) : ExcessInv p 0 { jt := [], bstk := [] } :=
  ⟨fun a k h => by simp at h, fun i j h => by simp [JumpTable.lookup, assocLookup] at h⟩

/-- An opener enters the stack with excess 1 and raises the excess of those below it. -/
theorem ExcessInv.push {p : List Instr} {n : Nat} {b : Builder} (h : ExcessInv p n b)
    (hop : p[n]? = some .jumpIfZero) : ExcessInv p (n + 1) { b with bstk := n :: b.bstk } := by
  refine ⟨fun a k hk => ?_, h.paired⟩
  cases a with
  | zero =>
    obtain rfl : n = k := by simpa using hk
    have hone : bracketExcess p n (n + 1) = 1 := by
      rw [bracketExcess_opener (Nat.le_refl n) hop, bracketExcess_self, Int.zero_add]
    refine ⟨Nat.lt_succ_self n, by simpa using hone, fun m h1 h2 => ?_⟩
    obtain rfl : m = n + 1 := by omega
    omega
  | succ a =>
    obtain ⟨hlt, hexcess, hopen⟩ := h.pending a k (by simpa using hk)
    have hnext := bracketExcess_opener (Nat.le_of_lt hlt) hop
    exact ⟨by omega, by push_cast; omega, hopen.succ (by omega)⟩

/-- A closer lowers every excess by 1: the top reaches 0 and is paired, those below it stay open. -/
theorem ExcessInv.pair {p : List Instr} {n j : Nat} {jt : JumpTable} {rest : List Nat}
    (h : ExcessInv p n { jt := jt, bstk := j :: rest }) (hop : p[n]? = some .jumpIfNonzero) :
    ExcessInv p (n + 1) { jt := jt.pair j n, bstk := rest } := by
  refine ⟨fun a k hk => ?_, fun i l hl hil => ?_⟩
  · obtain ⟨hlt, hexcess, hopen⟩ := h.pending (a + 1) k (by simpa using hk)
    have hnext := bracketExcess_closer (Nat.le_of_lt hlt) hop
    push_cast at hexcess
    exact ⟨by omega, by omega, hopen.succ (by omega)⟩
  · obtain ⟨hlt, hexcess, hopen⟩ := h.pending 0 j rfl
    have hnext := bracketExcess_closer (Nat.le_of_lt hlt) hop
    rw [JumpTable.lookup_pair] at hl
    split at hl
    · simp only [Option.some.injEq] at hl
      omega
    · split at hl
      · next hij =>
        obtain rfl : n = l := by simpa using hl
        subst hij
        exact ⟨by push_cast at hexcess; omega, hopen⟩
      · exact h.paired i l hl hil

/-- The six other opcodes leave every excess as it is. -/
theorem ExcessInv.skip {p : List Instr} {n : Nat} {b : Builder} {op : Instr} (h : ExcessInv p n b)
    (hop : p[n]? = some op) (h1 : op ≠ .jumpIfZero) (h2 : op ≠ .jumpIfNonzero) : ExcessInv p (n + 1) b := by
  refine ⟨fun a k hk => ?_, h.paired⟩
  obtain ⟨hlt, hexcess, hopen⟩ := h.pending a k hk
  have hnext := bracketExcess_other (Nat.le_of_lt hlt) hop h1 h2
  exact ⟨by omega, by omega, hopen.succ (by omega)⟩

/-- One iteration of the builder keeps it. -/
theorem excessInv_scanOpcode {p : List Instr} {n : Nat} {op : Instr} {b b' : Builder} (h : ExcessInv p n b)
    (hop : p[n]? = some op) (hs : scanOpcode n op b = .ok b') : ExcessInv p (n + 1) b' := by
  obtain ⟨rfl, he⟩ | ⟨rfl, -, he⟩ | ⟨j, rest, rfl, hb, he⟩ | ⟨h1, h2, he⟩ := scanOpcode_cases n op b
  · cases he.symm.trans hs
    exact h.push hop
  · cases he.symm.trans hs
  · cases he.symm.trans hs
    obtain ⟨jt, bstk⟩ := b
    obtain rfl : bstk = j :: rest := hb
    exact h.pair hop
  · cases he.symm.trans hs
    exact h.skip hop h1 h2

/-- The whole scan keeps it. -/
theorem excessInv_scanFrom {p l : List Instr} {n : Nat} {b b' : Builder} (h : ExcessInv p n b)
    (hl : p.drop n = l) (hs : scanFrom n b l = .ok b') : ExcessInv p (n + l.length) b' := by
  induction l generalizing n b with
  | nil =>
    cases hs
    exact h
  | cons op l ih =>
    obtain ⟨hop, hrest⟩ := getElem_drop_of_cons hl
    simp only [scanFrom] at hs
    split at hs
    · next b1 hb1 =>
      rw [List.length_cons, Nat.add_comm l.length 1, ← Nat.add_assoc]
      exact ih (excessInv_scanOpcode h hop hb1) hrest hs
    · cases hs

theorem excessInv_of_scan {p : List Instr} {b : Builder} (h : scanFrom 0 { jt := [], bstk := [] } p = .ok b) :
    ExcessInv p p.length b := by
  simpa using excessInv_scanFrom (l := p) (excessInv_start p) rfl h

/-- `j` is the first index after `i` up to which openers and closers are equally many. -/
def FirstEven (p : List Instr) (i j : Nat) : Prop :=
  i < j ∧ j < p.length ∧ evenBetween p i j ∧ ∀ k, i < k → k < j → ¬ evenBetween p i k

theorem FirstEven.unique {p : List Instr} {i j j' : Nat} (h : FirstEven p i j) (h' : FirstEven p i j') : j = j' := by
  obtain ⟨hij, -, heven, hfirst⟩ := h
  obtain ⟨hij', -, heven', hfirst'⟩ := h'
  obtain hlt | heq | hgt := Nat.lt_trichotomy j j'
  · exact absurd heven (hfirst' j hij hlt)
  · exact heq
  · exact absurd heven' (hfirst j' hij' hgt)

/-- While the excess stays positive, nothing is even. -/
theorem StaysOpen.not_even {p : List Instr} {i k n : Nat} (h : StaysOpen p i n) (hik : i < k) (hk : k < n) :
    ¬ evenBetween p i k := by
  rw [evenBetween_iff_bracketExcess]
  have := h (k + 1) (by omega) (by omega)
  omega

/-- Settles O14: a pair's closer is first even by the excess invariant, and first even is unique; an opener without an
entry is still on the stack, so that nothing after it is even. -/
theorem builtTableClosedForm : Obligations.BuiltTableClosedForm := by
  unfold Obligations.BuiltTableClosedForm
  intro strict p jt h i hi j
  obtain ⟨bstk, hs, -⟩ := scan_of_buildTable_ok h
  have hinv : BuilderInv p p.length jt bstk := builderInv_of_scan hs
  have hexcess : ExcessInv p p.length { jt := jt, bstk := bstk } := excessInv_of_scan hs
  have hfirst : ∀ l, jt.lookup i = some l → FirstEven p i l := by
    intro l hl
    have hil : i < l := by
      obtain ⟨-, -, hil⟩ | ⟨hcloser, -, -⟩ := hinv.table.directed i l hl
      · exact hil
      · simp [hi] at hcloser
    obtain ⟨hzero, hopen⟩ := hexcess.paired i l hl hil
    exact ⟨hil, (hinv.table.inRange i l hl).2, (evenBetween_iff_bracketExcess p i l).2 hzero,
      fun k hik hkl => hopen.not_even hik hkl⟩
  refine ⟨hfirst j, fun hj => ?_⟩
  cases hl : jt.lookup i with
  | some l => rw [(hfirst l hl).unique hj]
  | none =>
    have hlt : i < p.length := (List.getElem?_eq_some_iff.1 hi).1
    obtain ⟨a, ha⟩ := List.mem_iff_getElem?.1 ((hinv.pending i).2 ⟨hlt, hi, hl⟩)
    obtain ⟨-, -, hopen⟩ := hexcess.pending a i ha
    obtain ⟨hij, hjlen, heven, -⟩ := hj
    exact absurd heven (hopen.not_even hij hjlen)

end Sys2Proof.Machine
end

section
/-! SUPPORT. Reset and the load phase (70_reset_and_hazards.md section 1): what one load step can be, and that the load
steps do what the builders do as whole functions (log 10). -/

namespace Sys2Proof.Machine

/-- Everything a step of the filter stage can be. -/
theorem State.filterStep_cases (s : State) (k : Nat) :
    (s.src[k]? = none ∧ s.filterStep k = s.beginScan) ∨
    (∃ b prog, s.src[k]? = some b ∧ filterByte s.cfg.progCap s.prog b = .ok prog ∧
      s.filterStep k = { s with prog := prog, phase := .loading (.filter (k + 1)) }) ∨
    s.filterStep k = s.raise .programStoreExhausted := by
  unfold State.filterStep
  cases hb : s.src[k]? with
  | none => exact .inl ⟨rfl, rfl⟩
  | some b =>
    obtain ⟨-, he⟩ | ⟨i, -, -, he⟩ | ⟨i, -, -, he⟩ := filterByte_cases s.cfg.progCap s.prog b
    · exact .inr (.inl ⟨b, s.prog, rfl, he, by simp only [he]⟩)
    · exact .inr (.inl ⟨b, s.prog ++ [i], rfl, he, by simp only [he]⟩)
    · exact .inr (.inr (by simp only [he]))

/-- Everything a step of the builder stage can be. -/
theorem State.buildStep_cases (s : State) (i : Nat) :
    (s.prog[i]? = none ∧ (s.bstk = [] ∨ s.cfg.strictOpeners = false) ∧ s.buildStep i = s.runStart) ∨
    (∃ op b, s.prog[i]? = some op ∧ scanOpcode i op { jt := s.jt, bstk := s.bstk } = .ok b ∧
      s.buildStep i = { s with jt := b.jt, bstk := b.bstk, phase := .loading (.build (i + 1)) }) ∨
    (∃ j, s.buildStep i = s.raise (.unbalancedBracket j)) := by
  unfold State.buildStep
  cases hop : s.prog[i]? with
  | none =>
    obtain ⟨haccepted, he⟩ | ⟨top, rest, -, -, he⟩ :=
      finishScan_cases s.cfg.strictOpeners { jt := s.jt, bstk := s.bstk }
    · exact .inl ⟨rfl, haccepted, by simp only [he]⟩
    · exact .inr (.inr ⟨top, by simp only [he]⟩)
  | some op =>
    cases he : scanOpcode i op { jt := s.jt, bstk := s.bstk } with
    | ok b => exact .inr (.inl ⟨op, b, rfl, he, by simp only [he]⟩)
    | error c =>
      obtain ⟨rfl, h⟩ | ⟨rfl, -, h⟩ | ⟨j, rest, rfl, -, h⟩ | ⟨-, -, h⟩ :=
        scanOpcode_cases i op ⟨s.jt, s.bstk⟩
      · cases h.symm.trans he
      · cases h.symm.trans he
        exact .inr (.inr ⟨i, by simp only [he]⟩)
      · cases h.symm.trans he
      · cases h.symm.trans he

/-- A load step leaves the environment as it is, or starts the run. -/
theorem State.loadStep_env (s : State) (stage : LoadStage) :
    (s.loadStep stage).env = s.env ∨ (s.loadStep stage).env = s.env.archiveOut := by
  cases stage with
  | filter k =>
    obtain ⟨-, h⟩ | ⟨b, prog, -, -, h⟩ | h := s.filterStep_cases k
    · exact .inl (by rw [State.loadStep, h]; rfl)
    · exact .inl (by rw [State.loadStep, h])
    · exact .inl (by rw [State.loadStep, h]; rfl)
  | build i =>
    obtain ⟨-, -, h⟩ | ⟨op, b, -, -, h⟩ | ⟨j, h⟩ := s.buildStep_cases i
    · exact .inr (by rw [State.loadStep, h]; rfl)
    · exact .inl (by rw [State.loadStep, h])
    · exact .inl (by rw [State.loadStep, h]; rfl)

/-- A load step leaves the load phase for a run or for one of the load's two failures only. -/
theorem State.loadStep_phase (s : State) (stage : LoadStage) :
    (∃ stage', (s.loadStep stage).phase = .loading stage') ∨ (s.loadStep stage).phase = .running ∨
    (∃ i, (s.loadStep stage).phase = .failed (.unbalancedBracket i)) ∨
    (s.loadStep stage).phase = .failed .programStoreExhausted := by
  cases stage with
  | filter k =>
    obtain ⟨-, h⟩ | ⟨b, prog, -, -, h⟩ | h := s.filterStep_cases k
    · exact .inl ⟨.build 0, by rw [State.loadStep, h]; rfl⟩
    · exact .inl ⟨.filter (k + 1), by rw [State.loadStep, h]⟩
    · exact .inr (.inr (.inr (by rw [State.loadStep, h]; rfl)))
  | build i =>
    obtain ⟨-, -, h⟩ | ⟨op, b, -, -, h⟩ | ⟨j, h⟩ := s.buildStep_cases i
    · exact .inr (.inl (by rw [State.loadStep, h]; rfl))
    · exact .inl ⟨.build (i + 1), by rw [State.loadStep, h]⟩
    · exact .inr (.inr (.inl ⟨j, by rw [State.loadStep, h]; rfl⟩))

/-- The machine comes from `s` to `t` in `n` steps and until then shows Loading, the streams untouched. -/
def LoadsTo (n : Nat) (s t : State) : Prop :=
  runSteps n s = .next t ∧ ∀ m, m < n → ∃ u, runSteps m s = .next u ∧ u.status = .loading ∧ u.env = s.env

theorem LoadsTo.refl (s : State) : LoadsTo 0 s s :=
  ⟨rfl, fun _ hm => absurd hm (Nat.not_lt_zero _)⟩

theorem LoadsTo.trans {m n : Nat} {s t u : State} (h : LoadsTo m s t) (henv : t.env = s.env) (h' : LoadsTo n t u) :
    LoadsTo (m + n) s u := by
  obtain ⟨hrun, hbefore⟩ := h
  obtain ⟨hrun', hbefore'⟩ := h'
  refine ⟨(runSteps_add n hrun).trans hrun', fun k hk => ?_⟩
  by_cases hkm : k < m
  · exact hbefore k hkm
  · obtain ⟨j, rfl⟩ := Nat.exists_eq_add_of_le (Nat.le_of_not_lt hkm)
    obtain ⟨v, hv, hstatus, hvenv⟩ := hbefore' j (by omega)
    exact ⟨v, (runSteps_add j hrun).trans hv, hstatus, hvenv.trans henv⟩

/-- One step of the load phase. -/
theorem LoadsTo.single {s t : State} {stage : LoadStage} (hr : s.env.rst = none) (hp : s.phase = .loading stage)
    (h : s.loadStep stage = t) : LoadsTo 1 s t := by
  refine ⟨by rw [runSteps_succ_of_step 0 (step_of_loading hr hp), h, runSteps_zero], fun m hm => ?_⟩
  obtain rfl : m = 0 := by omega
  exact ⟨s, rfl, by simp only [State.status, hp], rfl⟩

/-- One step of the load phase before others. -/
theorem LoadsTo.cons {n : Nat} {s t u : State} {stage : LoadStage} (hr : s.env.rst = none)
    (hp : s.phase = .loading stage) (h : s.loadStep stage = t) (henv : t.env = s.env) (h' : LoadsTo n t u) :
    LoadsTo (n + 1) s u :=
  Nat.add_comm 1 n ▸ (LoadsTo.single hr hp h).trans henv h'

/-- The machine comes to Failed with the cause `c`, the streams untouched, showing Loading until then. -/
def FailsLoading (c : Cause) (s : State) : Prop :=
  ∃ n t, LoadsTo n s t ∧ t.phase = .failed c ∧ t.env = s.env

theorem FailsLoading.of_loadsTo {n : Nat} {c : Cause} {s t : State} (h : LoadsTo n s t) (henv : t.env = s.env)
    (h' : FailsLoading c t) : FailsLoading c s := by
  obtain ⟨m, u, hload, hphase, hu⟩ := h'
  exact ⟨n + m, u, h.trans henv hload, hphase, hu.trans henv⟩

theorem FailsLoading.of_raise {c : Cause} {s : State} {stage : LoadStage} (hr : s.env.rst = none)
    (hp : s.phase = .loading stage) (h : s.loadStep stage = s.raise c) : FailsLoading c s :=
  ⟨1, s.raise c, .single hr hp h, rfl, rfl⟩

/-- What the host sees of a load that fails. -/
theorem FailsLoading.shows_loading {c : Cause} {s : State} (h : FailsLoading c s) :
    ∃ n t, runSteps n s = .next t ∧ t.phase = .failed c ∧ t.env = s.env ∧
      ∀ m, m < n → ∃ u, runSteps m s = .next u ∧ u.status = .loading := by
  obtain ⟨n, t, ⟨ht, hbefore⟩, hphase, henv⟩ := h
  refine ⟨n, t, ht, hphase, henv, fun m hm => ?_⟩
  obtain ⟨u, hu, hstatus, -⟩ := hbefore m hm
  exact ⟨u, hu, hstatus⟩

/-- `s` in the filter stage at offset `k`, with `prog` stored so far. -/
def State.filtering (s : State) (prog : List Instr) (k : Nat) : State :=
  { s with prog := prog, phase := .loading (.filter k) }

/-- `s` in the builder stage at index `i`, with the builder's data `b`. -/
def State.building (s : State) (b : Builder) (i : Nat) : State :=
  { s with jt := b.jt, bstk := b.bstk, phase := .loading (.build i) }

theorem State.filtering_loadStep_of_ok {s : State} {prog prog' : List Instr} {k : Nat} {b : Byte}
    (hb : s.src[k]? = some b) (h : filterByte s.cfg.progCap prog b = .ok prog') :
    (s.filtering prog k).loadStep (.filter k) = s.filtering prog' (k + 1) := by
  simp only [State.loadStep, State.filterStep, State.filtering, hb, h]

theorem State.building_loadStep_of_ok {s : State} {b b' : Builder} {i : Nat} {op : Instr}
    (hop : s.prog[i]? = some op) (h : scanOpcode i op b = .ok b') :
    (s.building b i).loadStep (.build i) = s.building b' (i + 1) := by
  simp only [State.loadStep, State.buildStep, State.building, hop, h]

/-- What is still to come of a list read from index `k` on: `getElem_drop_of_cons`, also for the bytes of a source. -/
theorem getElem?_of_drop_eq_cons {α : Type} {l rest : List α} {k : Nat} {x : α} (h : l.drop k = x :: rest) :
    l[k]? = some x ∧ l.drop (k + 1) = rest := by
  constructor
  · rw [← List.head?_drop, h, List.head?_cons]
  · rw [← List.drop_drop, h, List.drop_one, List.tail_cons]

/-- Where the filter succeeds, the filter stage takes one step a byte and stores its program. -/
theorem loadsTo_of_filterFrom_ok {s : State} (hr : s.env.rst = none) {l : List Byte} {k : Nat}
    {prog p : List Instr} (hl : s.src.drop k = l) (h : filterFrom s.cfg.progCap prog l = .ok p) :
    LoadsTo l.length (s.filtering prog k) (s.filtering p (k + l.length)) := by
  induction l generalizing k prog with
  | nil =>
    cases h
    exact .refl _
  | cons b l ih =>
    obtain ⟨hb, hrest⟩ := getElem?_of_drop_eq_cons hl
    cases hf : filterByte s.cfg.progCap prog b with
    | error c => simp [filterFrom_cons_of_error l hf] at h
    | ok prog' =>
      rw [filterFrom_cons_of_ok l hf] at h
      have hnext := ih hrest h
      rw [Nat.add_right_comm] at hnext
      exact .cons hr rfl (State.filtering_loadStep_of_ok hb hf) rfl hnext

/-- Where the filter fails, the filter stage comes to its cause. -/
theorem failsLoading_of_filterFrom_error {s : State} (hr : s.env.rst = none) {l : List Byte} {k : Nat}
    {prog : List Instr} {c : Cause} (hl : s.src.drop k = l) (h : filterFrom s.cfg.progCap prog l = .error c) :
    FailsLoading c (s.filtering prog k) := by
  induction l generalizing k prog with
  | nil => cases h
  | cons b l ih =>
    obtain ⟨hb, hrest⟩ := getElem?_of_drop_eq_cons hl
    cases hf : filterByte s.cfg.progCap prog b with
    | error c' =>
      cases (filterFrom_cons_of_error l hf).symm.trans h
      exact .of_raise (s := s.filtering prog k) hr rfl (State.filterStep_of_error hb hf)
    | ok prog' =>
      rw [filterFrom_cons_of_ok l hf] at h
      exact .of_loadsTo (.single hr rfl (State.filtering_loadStep_of_ok hb hf)) rfl (ih hrest h)

theorem scanFrom_cons_of_ok {i : Nat} {b b' : Builder} {op : Instr} (l : List Instr)
    (h : scanOpcode i op b = .ok b') : scanFrom i b (op :: l) = scanFrom (i + 1) b' l := by
  simp only [scanFrom, h]

theorem scanFrom_cons_of_error {i : Nat} {b : Builder} {op : Instr} {c : Cause} (l : List Instr)
    (h : scanOpcode i op b = .error c) : scanFrom i b (op :: l) = .error c := by
  simp only [scanFrom, h]

/-- Where the scan succeeds, the builder stage takes one step an opcode and ends with its data. -/
theorem loadsTo_of_scanFrom_ok {s : State} (hr : s.env.rst = none) {l : List Instr} {i : Nat} {b b' : Builder}
    (hl : s.prog.drop i = l) (h : scanFrom i b l = .ok b') :
    LoadsTo l.length (s.building b i) (s.building b' (i + l.length)) := by
  induction l generalizing i b with
  | nil =>
    cases h
    exact .refl _
  | cons op l ih =>
    obtain ⟨hop, hrest⟩ := getElem?_of_drop_eq_cons hl
    cases hs : scanOpcode i op b with
    | error c => simp [scanFrom_cons_of_error l hs] at h
    | ok b1 =>
      rw [scanFrom_cons_of_ok l hs] at h
      have hnext := ih hrest h
      rw [Nat.add_right_comm] at hnext
      exact .cons hr rfl (State.building_loadStep_of_ok hop hs) rfl hnext

/-- Where the scan fails, the builder stage comes to its cause. -/
theorem failsLoading_of_scanFrom_error {s : State} (hr : s.env.rst = none) {l : List Instr} {i : Nat} {b : Builder}
    {c : Cause} (hl : s.prog.drop i = l) (h : scanFrom i b l = .error c) : FailsLoading c (s.building b i) := by
  induction l generalizing i b with
  | nil => cases h
  | cons op l ih =>
    obtain ⟨hop, hrest⟩ := getElem?_of_drop_eq_cons hl
    cases hs : scanOpcode i op b with
    | error c' =>
      cases (scanFrom_cons_of_error l hs).symm.trans h
      exact .of_raise (s := s.building b i) hr rfl (State.buildStep_of_error hop hs)
    | ok b1 =>
      rw [scanFrom_cons_of_ok l hs] at h
      exact .of_loadsTo (.single hr rfl (State.building_loadStep_of_ok hop hs)) rfl (ih hrest h)

/-- The builder's data before its scan. -/
def Builder.empty : Builder := { jt := [], bstk := [] }

/-- The filter stage at the end of the source begins the scan. -/
theorem State.filtering_loadStep_end (s : State) (p : List Instr) :
    (s.filtering p s.src.length).loadStep (.filter s.src.length) =
      State.building { s with prog := p } Builder.empty 0 := by
  simp only [State.loadStep, State.filterStep, State.filtering, List.getElem?_eq_none (Nat.le_refl _)]
  rfl

/-- The scan at the end of the program starts the run where the builder accepts what is pending. -/
theorem State.building_loadStep_of_accepted {s : State} {b : Builder} {jt : JumpTable}
    (h : finishScan s.cfg.strictOpeners b = .ok jt) :
    (s.building b s.prog.length).loadStep (.build s.prog.length) = (s.building b s.prog.length).runStart := by
  simp only [State.loadStep, State.buildStep, State.building, List.getElem?_eq_none (Nat.le_refl _), h]

/-- It raises what the builder rejects. -/
theorem State.building_loadStep_of_rejected {s : State} {b : Builder} {c : Cause}
    (h : finishScan s.cfg.strictOpeners b = .error c) :
    (s.building b s.prog.length).loadStep (.build s.prog.length) = (s.building b s.prog.length).raise c := by
  simp only [State.loadStep, State.buildStep, State.building, List.getElem?_eq_none (Nat.le_refl _), h]

/-- A table that the end of the scan gives is the scan's own. -/
theorem jt_of_finishScan_ok {strict : Bool} {b : Builder} {jt : JumpTable} (h : finishScan strict b = .ok jt) :
    b.jt = jt := by
  obtain ⟨-, he⟩ | ⟨top, rest, -, -, he⟩ := finishScan_cases strict b
  · cases he.symm.trans h
    rfl
  · cases he.symm.trans h

/-- Run start over a loaded program and its table. -/
def State.startedWith (s : State) (p : List Instr) (jt : JumpTable) : State :=
  { s with prog := p, jt := jt, bstk := [], tape := Memory.zeros s.cfg.tapeInit, pc := 0, cur := 0,
           phase := .running, env := s.env.archiveOut }

/-- Where the build succeeds, the scan's steps and one more start the run over its table. -/
theorem loadsTo_of_buildTable_ok {s : State} (hr : s.env.rst = none) {jt : JumpTable}
    (h : buildTable s.cfg.strictOpeners s.prog = .ok jt) :
    LoadsTo (s.prog.length + 1) (s.building Builder.empty 0) (s.startedWith s.prog jt) := by
  cases hs : scanFrom 0 Builder.empty s.prog with
  | error c => simp [buildTable_of_scan_error _ hs] at h
  | ok b =>
    rw [buildTable_of_scan_ok _ hs] at h
    have hscan := loadsTo_of_scanFrom_ok hr rfl hs
    rw [List.drop_zero, Nat.zero_add] at hscan
    refine hscan.trans rfl (.single hr rfl ?_)
    rw [State.building_loadStep_of_accepted h]
    obtain rfl := jt_of_finishScan_ok h
    rfl

/-- Where the build fails, the builder stage comes to its cause. -/
theorem failsLoading_of_buildTable_error {s : State} (hr : s.env.rst = none) {c : Cause}
    (h : buildTable s.cfg.strictOpeners s.prog = .error c) : FailsLoading c (s.building Builder.empty 0) := by
  cases hs : scanFrom 0 Builder.empty s.prog with
  | error c' =>
    cases (buildTable_of_scan_error _ hs).symm.trans h
    exact failsLoading_of_scanFrom_error hr rfl hs
  | ok b =>
    rw [buildTable_of_scan_ok _ hs] at h
    have hscan := loadsTo_of_scanFrom_ok hr rfl hs
    rw [List.drop_zero, Nat.zero_add] at hscan
    exact .of_loadsTo hscan rfl
      (.of_raise (s := s.building b s.prog.length) hr rfl (State.building_loadStep_of_rejected h))

theorem loadProgram_of_filter_error {cfg : Config} {src : List Byte} {c : Cause}
    (h : filterSource cfg.progCap src = .error c) : loadProgram cfg src = .error c := by
  simp only [loadProgram, h]

theorem loadProgram_of_build_error {cfg : Config} {src : List Byte} {p : List Instr} {c : Cause}
    (h : filterSource cfg.progCap src = .ok p) (hb : buildTable cfg.strictOpeners p = .error c) :
    loadProgram cfg src = .error c := by
  simp only [loadProgram, h, hb]

theorem loadProgram_of_ok {cfg : Config} {src : List Byte} {p : List Instr} {jt : JumpTable}
    (h : filterSource cfg.progCap src = .ok p) (hb : buildTable cfg.strictOpeners p = .ok jt) :
    loadProgram cfg src = .ok (p, jt) := by
  simp only [loadProgram, h, hb]

/-- Where the filter succeeds, its steps and one more begin the scan of its program. -/
theorem loadsTo_of_filterSource_ok {s : State} (hr : s.env.rst = none) {p : List Instr}
    (h : filterSource s.cfg.progCap s.src = .ok p) :
    LoadsTo (s.src.length + 1) (s.filtering [] 0) (State.building { s with prog := p } Builder.empty 0) := by
  have hfilter := loadsTo_of_filterFrom_ok hr (k := 0) rfl h
  rw [List.drop_zero, Nat.zero_add] at hfilter
  exact hfilter.trans rfl (.single hr rfl (s.filtering_loadStep_end p))

/-- At the start of the load phase the state is in the filter stage with nothing stored. -/
theorem State.filtering_start {s : State} (hp : s.phase = .loading (.filter 0)) (hprog : s.prog = []) :
    s.filtering [] 0 = s := by
  obtain ⟨⟩ := s
  simp_all [State.filtering]

/-- Settles O15: the filter's steps, one that begins the scan, the scan's steps and one that starts the run; a failure
of either builder is met on the way. -/
theorem loadPhaseRefinesTheBuilders : Obligations.LoadPhaseRefinesTheBuilders := by
  unfold Obligations.LoadPhaseRefinesTheBuilders
  intro s hr hp hprog
  have hstart : s.filtering [] 0 = s := State.filtering_start hp hprog
  cases hf : filterSource s.cfg.progCap s.src with
  | error c =>
    have hfails : FailsLoading c s := hstart ▸ failsLoading_of_filterFrom_error hr (k := 0) rfl hf
    refine ⟨fun p jt h => ?_, fun c' h => ?_⟩
    · cases (loadProgram_of_filter_error hf).symm.trans h
    · cases (loadProgram_of_filter_error hf).symm.trans h
      exact hfails.shows_loading
  | ok p =>
    have hfilter := loadsTo_of_filterSource_ok hr hf
    rw [hstart] at hfilter
    cases hb : buildTable s.cfg.strictOpeners p with
    | error c =>
      have hfails : FailsLoading c s :=
        .of_loadsTo hfilter rfl (failsLoading_of_buildTable_error (s := { s with prog := p }) hr hb)
      refine ⟨fun p' jt h => ?_, fun c' h => ?_⟩
      · cases (loadProgram_of_build_error hf hb).symm.trans h
      · cases (loadProgram_of_build_error hf hb).symm.trans h
        exact hfails.shows_loading
    | ok jt =>
      refine ⟨fun p' jt' h => ?_, fun c' h => ?_⟩
      · cases (loadProgram_of_ok hf hb).symm.trans h
        exact hfilter.trans rfl (loadsTo_of_buildTable_ok (s := { s with prog := p }) hr hb)
      · cases (loadProgram_of_ok hf hb).symm.trans h

/-- Before run start no cell can be read (log 18). -/
theorem Memory.read_absent (a : Nat) : Memory.absent.read a = none :=
  (Memory.read_eq_none _ _).2 (Nat.zero_le a)

/-- Settles O16: the fields of the reset state. -/
theorem resetStateValues : Obligations.ResetStateValues := by
  unfold Obligations.ResetStateValues
  exact ⟨rfl, rfl, rfl, rfl, rfl, rfl, Memory.read_absent, rfl⟩

/-- Settles O17: a pending reset is served by `doReset`, in any phase. -/
theorem resetBeginsANewLifecycle : Obligations.ResetBeginsANewLifecycle := by
  unfold Obligations.ResetBeginsANewLifecycle
  intro s r hr
  exact ⟨s.doReset r, step_of_reset hr, rfl, rfl, rfl, rfl, rfl, rfl, rfl, rfl, Memory.read_absent, rfl⟩

/-- Settles O25: the load step by its own cases, the engine by R101's table of causes. -/
theorem phaseMovesOnlyForward : Obligations.PhaseMovesOnlyForward := by
  unfold Obligations.PhaseMovesOnlyForward
  refine fun s t hr h => ⟨fun ⟨stage, hp⟩ => ?_, fun hrun => ?_, fun hp => ?_, fun c hp => ?_⟩
  · cases (step_of_loading hr hp).symm.trans h
    exact s.loadStep_phase stage
  · cases hi : s.prog[s.pc]? with
    | none =>
      cases (step_of_no_instruction hr hrun hi).symm.trans h
      exact .inr (.inl rfl)
    | some i =>
      obtain hkeep | ⟨c, hc, hraise⟩ := exec_next_phase ((step_of_fetched hr hrun hi).symm.trans h)
      · exact .inl (hkeep.trans hrun)
      · refine .inr (.inr ⟨c, hc, ?_⟩)
        cases i with
        | moveRight | jumpIfZero =>
          obtain ⟨rfl, -⟩ := hraise
          simp
        | output | input =>
          obtain rfl := hraise
          simp
        | moveLeft | increment | decrement | jumpIfNonzero => exact hraise.elim
  · cases (step_of_halted hr hp).symm.trans h
    exact hp
  · cases (step_of_failed hr hp).symm.trans h
    exact hp

/-- Settles O49: a load step leaves the environment as it is, or only moves the output log into the past. -/
theorem loadPhaseMakesNoPortTransaction : Obligations.LoadPhaseMakesNoPortTransaction := by
  unfold Obligations.LoadPhaseMakesNoPortTransaction
  intro s t stage hr hp h
  cases (step_of_loading hr hp).symm.trans h
  obtain henv | henv := s.loadStep_env stage
  · simp [henv]
  · simp [henv]

end Sys2Proof.Machine
end

section
/-! SUPPORT. Everything an instruction can do, in one relation; the laws about all eight go by its cases. -/

namespace Sys2Proof.Machine

/-- The state after a move to the right that meets no limit. -/
def State.movedRight (s : State) : State :=
  { s with cur := s.cur + 1, tape := s.movedRightTape, pc := s.pc + 1 }

/-- move-right: the failure at the limit, else the move. -/
theorem execMoveRight_next_iff (s t : State) :
    execMoveRight s = .next t ↔
      (s.atTapeCap = true ∧ t = s.raise .tapeExhausted) ∨ (s.atTapeCap = false ∧ t = s.movedRight) := by
  rw [execMoveRight_next, State.growIfAtEnd_eq_setTape]
  rfl

/-- The shapes of the next state an instruction `i` can answer in `s`. -/
inductive Effect (s : State) : Instr → State → Prop
  /-- A failure; a write that failed has used up its answer. -/
  | raised {i : Instr} {c : Cause} (ans : List OutAnswer) (hraise : s.MayRaise c i) :
      Effect s i ((s.setEnv { s.env with outAns := ans }).raise c)
  | movedRight (hcap : s.atTapeCap = false) : Effect s .moveRight s.movedRight
  | movedLeft : Effect s .moveLeft { s with cur := s.cur - 1, pc := s.pc + 1 }
  | computed {i : Instr} (v : Byte) (hi : i = .increment ∨ i = .decrement) (hcell : s.cur < s.tape.len) :
      Effect s i { s with tape := s.tape.write s.cur v, pc := s.pc + 1 }
  | received (b : Byte) (rest : List Byte) (hinp : s.env.inp = b :: rest) (hcell : s.cur < s.tape.len) :
      Effect s .input
        { s with tape := s.tape.write s.cur b, pc := s.pc + 1, env := { s.env with inp := rest } }
  | sent (v : Byte) (ans : List OutAnswer) :
      Effect s .output { s with pc := s.pc + 1, env := { s.env with outAns := ans, out := s.env.out ++ [v] } }
  | blocked {i : Instr} (hi : i = .output ∨ i = .input) : Effect s i s
  | fellThrough {i : Instr} (hi : i = .jumpIfZero ∨ i = .jumpIfNonzero) : Effect s i { s with pc := s.pc + 1 }
  | jumped {i : Instr} (hi : i = .jumpIfZero ∨ i = .jumpIfNonzero) (j : Nat) (hj : s.jt.lookup s.pc = some j) :
      Effect s i { s with pc := j + 1 }

/-- Each way an instruction can answer has one of the shapes. -/
theorem exec_effect {i : Instr} {s t : State} (h : exec i s = .next t) : Effect s i t := by
  cases i with
  | moveRight =>
    obtain ⟨hcap, rfl⟩ | ⟨hcap, rfl⟩ := (execMoveRight_next_iff s t).1 h
    · obtain ⟨n, hn, -⟩ := s.atTapeCap_iff.1 hcap
      exact .raised s.env.outAns ⟨rfl, n, hn⟩
    · exact .movedRight hcap
  | moveLeft =>
    obtain rfl := (execMoveLeft_next s t).1 h
    exact .movedLeft
  | increment =>
    obtain ⟨v, -, hcell, rfl⟩ := (execIncrement_next s t).1 h
    exact .computed _ (.inl rfl) hcell
  | decrement =>
    obtain ⟨v, -, hcell, rfl⟩ := (execDecrement_next s t).1 h
    exact .computed _ (.inr rfl) hcell
  | output =>
    obtain ⟨v, -, ⟨ans, rfl⟩ | ⟨ans, rfl⟩ | ⟨-, -, rfl⟩⟩ := execOutput_next s t h
    · exact .sent v ans
    · exact .raised ans rfl
    · exact .blocked (.inl rfl)
  | input =>
    obtain ⟨b, rest, hinp, hcell, rfl⟩ | ⟨-, -, rfl⟩ | ⟨-, -, rfl⟩ := execInput_next s t h
    · exact .received b rest hinp hcell
    · exact .raised s.env.outAns rfl
    · exact .blocked (.inr rfl)
  | jumpIfZero =>
    obtain ⟨v, hv, ⟨-, rfl⟩ | ⟨-, j, hj, rfl⟩ | ⟨rfl, hj, rfl⟩⟩ := execJumpIfZero_next s t h
    · exact .fellThrough (.inl rfl)
    · exact .jumped (.inl rfl) j hj
    · exact .raised s.env.outAns ⟨rfl, hj, hv⟩
  | jumpIfNonzero =>
    obtain ⟨v, -, ⟨-, rfl⟩ | ⟨-, j, hj, rfl⟩⟩ := execJumpIfNonzero_next s t h
    · exact .fellThrough (.inr rfl)
    · exact .jumped (.inr rfl) j hj

/-- No cell but the current one is changed. -/
theorem Effect.read_of_ne {i : Instr} {s t : State} (h : Effect s i t) {a : Nat} (hne : a ≠ s.cur)
    (ha : a < s.tape.len) : t.tape.read a = s.tape.read a := by
  cases h with
  | movedRight => exact s.movedRightTape_read_of_lt ha
  | computed v => exact s.tape.read_write_of_ne v hne
  | received b => exact s.tape.read_write_of_ne b hne
  | _ => rfl

/-- Only increment, decrement and input change a cell. -/
theorem Effect.read_of_not_storing {i : Instr} {s t : State} (h : Effect s i t) (hinc : i ≠ .increment)
    (hdec : i ≠ .decrement) (hin : i ≠ .input) {a : Nat} (ha : a < s.tape.len) :
    t.tape.read a = s.tape.read a := by
  cases h with
  | movedRight => exact s.movedRightTape_read_of_lt ha
  | computed v hi => exact absurd hi (not_or.2 ⟨hinc, hdec⟩)
  | received => exact absurd rfl hin
  | _ => rfl

/-- Only move-right changes the tape's length. -/
theorem Effect.len_eq {i : Instr} {s t : State} (h : Effect s i t) (hi : i ≠ .moveRight) :
    t.tape.len = s.tape.len := by
  cases h with
  | movedRight => exact absurd rfl hi
  | _ => rfl

/-- Only the moves change the cursor. -/
theorem Effect.cur_eq {i : Instr} {s t : State} (h : Effect s i t) (hright : i ≠ .moveRight)
    (hleft : i ≠ .moveLeft) : t.cur = s.cur := by
  cases h with
  | movedRight => exact absurd rfl hright
  | movedLeft => exact absurd rfl hleft
  | _ => rfl

/-- Only the brackets send `pc` elsewhere than to the next index, a blocked instruction apart. -/
theorem Effect.pc_eq_or_eq {i : Instr} {s t : State} (h : Effect s i t) (hopener : i ≠ .jumpIfZero)
    (hcloser : i ≠ .jumpIfNonzero) (hok : ∀ c, t.phase ≠ .failed c) : t.pc = s.pc + 1 ∨ t = s := by
  cases h with
  | raised => exact absurd rfl (hok _)
  | jumped hi => exact absurd hi (not_or.2 ⟨hopener, hcloser⟩)
  | blocked => exact .inr rfl
  | _ => exact .inl rfl

/-- No instruction touches a pending reset, the earlier output, the closed flag or the standing answer. -/
theorem Effect.env_frame {i : Instr} {s t : State} (h : Effect s i t) :
    t.env.rst = s.env.rst ∧ t.env.outPast = s.env.outPast ∧ t.env.inClosed = s.env.inClosed ∧
    t.env.outRest = s.env.outRest := by
  cases h with
  | _ => exact ⟨rfl, rfl, rfl, rfl⟩

/-- An instruction logs at most one byte, at the end of `out`. -/
theorem Effect.out_eq {i : Instr} {s t : State} (h : Effect s i t) :
    ∃ l, t.env.out = s.env.out ++ l ∧ l.length ≤ 1 := by
  cases h with
  | sent v => exact ⟨[v], rfl, Nat.le_refl 1⟩
  | _ => exact ⟨[], (List.append_nil _).symm, Nat.zero_le 1⟩

/-- An instruction takes at most one byte, from the front of `inp`. -/
theorem Effect.inp_eq {i : Instr} {s t : State} (h : Effect s i t) :
    ∃ k, s.env.inp = k ++ t.env.inp ∧ k.length ≤ 1 := by
  cases h with
  | received b rest hinp => exact ⟨[b], hinp, Nat.le_refl 1⟩
  | _ => exact ⟨[], rfl, Nat.zero_le 1⟩

/-- From a running state only a raise is a failure. -/
theorem Effect.eq_raise_of_failed {i : Instr} {s t : State} {c : Cause} (h : Effect s i t)
    (hrun : s.phase = .running) (hc : t.phase = .failed c) :
    ∃ ans, t = (s.setEnv { s.env with outAns := ans }).raise c := by
  cases h with
  | raised ans =>
    cases hc
    exact ⟨ans, rfl⟩
  | _ => cases hrun.symm.trans hc

/-- Settles O23: a step that fails is a raise, which only uses up the answer of a write. -/
theorem failureKeepsTheStreams : Obligations.FailureKeepsTheStreams := by
  unfold Obligations.FailureKeepsTheStreams
  intro s t c hr hrun h hc
  cases hi : s.prog[s.pc]? with
  | none =>
    cases (step_of_no_instruction hr hrun hi).symm.trans h
    cases hc
  | some i =>
    obtain ⟨ans, rfl⟩ :=
      (exec_effect ((step_of_fetched hr hrun hi).symm.trans h)).eq_raise_of_failed hrun hc
    refine ⟨rfl, rfl, rfl, rfl, rfl, rfl, fun P hend => ?_⟩
    cases hend.1

/-- Settles O36: the frame of each part of the state, by the shapes of the next state. -/
theorem completedInstructionFrame : Obligations.CompletedInstructionFrame := by
  unfold Obligations.CompletedInstructionFrame
  intro i s t hrun h hok
  have heffect : Effect s i t := exec_effect h
  have hphase : t.phase = .running := by
    obtain hkeep | ⟨c, hc, -⟩ := exec_next_phase h
    · exact hkeep.trans hrun
    · exact absurd hc (hok c)
  refine ⟨fun a hne ha => heffect.read_of_ne hne ha,
    fun hinc hdec hin a ha => heffect.read_of_not_storing hinc hdec hin ha, heffect.len_eq, heffect.cur_eq,
    fun hopener hcloser => heffect.pc_eq_or_eq hopener hcloser hok, hphase, heffect.env_frame⟩

/-- What O48 says of one step, of the streams before it and after it. -/
def MovesOneByteAtMost (e e' : Env) : Prop :=
  (∃ l, e'.outPast ++ e'.out = (e.outPast ++ e.out) ++ l ∧ l.length ≤ 1) ∧
  (∃ k, e.inp = k ++ e'.inp ∧ k.length ≤ 1)

/-- Streams that are kept, though the output log may move into the past, move no byte. -/
theorem movesOneByteAtMost_of_kept {e e' : Env} (hout : e'.outPast ++ e'.out = e.outPast ++ e.out)
    (hinp : e'.inp = e.inp) : MovesOneByteAtMost e e' :=
  ⟨⟨[], by rw [hout, List.append_nil], Nat.zero_le 1⟩, [], hinp.symm, Nat.zero_le 1⟩

theorem movesOneByteAtMost_refl (e : Env) : MovesOneByteAtMost e e :=
  movesOneByteAtMost_of_kept rfl rfl

theorem movesOneByteAtMost_archiveOut (e : Env) : MovesOneByteAtMost e e.archiveOut :=
  movesOneByteAtMost_of_kept (by simp) rfl

theorem Effect.movesOneByteAtMost {i : Instr} {s t : State} (h : Effect s i t) : MovesOneByteAtMost s.env t.env := by
  obtain ⟨-, hpast, -⟩ := h.env_frame
  obtain ⟨l, hout, hlen⟩ := h.out_eq
  exact ⟨⟨l, by rw [hpast, hout, List.append_assoc], hlen⟩, h.inp_eq⟩

/-- Settles O48: a reset and run start move the log as a whole, an instruction adds or takes one byte at most. -/
theorem streamsMoveOneByteAtMost : Obligations.StreamsMoveOneByteAtMost := by
  unfold Obligations.StreamsMoveOneByteAtMost
  intro s t h
  change MovesOneByteAtMost s.env t.env
  obtain ⟨r, -, hs⟩ | ⟨-, stage, -, hs⟩ | ⟨-, -, i, -, hs⟩ | ⟨-, -, -, hs⟩ | ⟨-, -, hs⟩ | ⟨-, c, -, hs⟩ :=
    step_cases s
  case inr.inr.inl => exact (exec_effect (hs.symm.trans h)).movesOneByteAtMost
  all_goals cases hs.symm.trans h
  · exact movesOneByteAtMost_archiveOut s.env
  · obtain henv | henv := s.loadStep_env stage
    · exact henv ▸ movesOneByteAtMost_refl s.env
    · exact henv ▸ movesOneByteAtMost_archiveOut s.env
  · exact movesOneByteAtMost_refl s.env
  · exact movesOneByteAtMost_refl s.env
  · exact movesOneByteAtMost_refl s.env

/-- Settles O34: with no byte and with no answer the transaction is pending, and the instruction waits. -/
theorem unansweredTransactionChangesNothing : Obligations.UnansweredTransactionChangesNothing := by
  unfold Obligations.UnansweredTransactionChangesNothing
  refine fun s _ => ⟨fun hinp hopen => ?_, fun v hv hans hrest => ?_⟩
  · simp only [exec, execInput, Env.inRead, hinp, hopen, Bool.false_eq_true, if_false, State.wait_eq]
  · simp only [exec, execOutput]
    rw [s.withCurrentCell_of_read _ hv]
    simp only [Env.outWrite, Env.nextAnswer, hans, hrest, Option.map_none, State.wait_eq]

/-- Where the current cell does not exist, using it faults. -/
theorem State.withCurrentCell_of_missing {s : State} (k : Byte → Host.Outcome State Fault Refusal)
    (h : s.tape.len ≤ s.effectiveAddress) : s.withCurrentCell k = .fault (.noCell s.effectiveAddress) := by
  simp only [State.withCurrentCell, State.currentCell, (Memory.read_eq_none _ _).2 h]

theorem State.storeCell_of_missing {s : State} (v : Byte) (h : s.tape.len ≤ s.effectiveAddress) :
    s.storeCell v = .fault (.noCell s.effectiveAddress) :=
  if_neg (Nat.not_lt.2 h)

/-- Settles O35: five of them use the current cell first, input stores the byte it was given. -/
theorem missingCellFaultsByName : Obligations.MissingCellFaultsByName := by
  unfold Obligations.MissingCellFaultsByName
  intro s i _ hmissing hi
  obtain rfl | rfl | rfl | rfl | rfl | ⟨rfl, hinp⟩ := hi
  case inr.inr.inr.inr.inr =>
    obtain ⟨b, rest, hcons⟩ := List.exists_cons_of_ne_nil hinp
    rw [exec_input_of_cons hcons]
    exact State.storeCell_of_missing b hmissing
  all_goals exact State.withCurrentCell_of_missing _ hmissing

end Sys2Proof.Machine
end

section
/-! SUPPORT. The tape's canonical form (log 5): every step that does not fail keeps it, and it makes equal tapes equal
data. -/

namespace Sys2Proof.Machine

/-- Rising lists with the same entries are the same list. -/
theorem eq_of_keysRising {α : Type} {l l' : List (Nat × α)} (h : keysRising l = true) (h' : keysRising l' = true)
    (hmem : ∀ e, e ∈ l ↔ e ∈ l') : l = l' := by
  have hl := (keysRising_iff l).1 h
  have hl' := (keysRising_iff l').1 h'
  have hnodup : ∀ {m : List (Nat × α)}, m.Pairwise (fun e f => e.1 < f.1) → m.Nodup := fun hm =>
    hm.imp fun hlt heq => absurd (congrArg Prod.fst heq) (Nat.ne_of_lt hlt)
  have hperm : l.Perm l' := (List.perm_ext_iff_of_nodup (hnodup hl) (hnodup hl')).2 hmem
  exact hperm.eq_of_pairwise (fun e f _ _ hef hfe => absurd hef (Nat.lt_asymm hfe)) hl hl'

/-- The entries of a canonical tape are the existing cells that do not read 0. -/
theorem Memory.mem_cells_iff {m : Memory} (hwf : m.wf = true) (a : Nat) (v : Byte) :
    (a, v) ∈ m.cells ↔ m.read a = some v ∧ v ≠ unwrittenCell := by
  obtain ⟨hrising, hcells⟩ := (Memory.wf_iff m).1 hwf
  constructor
  · intro hmem
    obtain ⟨hlt, hne⟩ := hcells _ hmem
    refine ⟨(Memory.read_eq_some _ _ _).2 ⟨hlt, ?_⟩, hne⟩
    rw [assocLookup_of_mem _ hrising hmem, Option.getD_some]
  · rintro ⟨hread, hne⟩
    obtain ⟨-, hget⟩ := (Memory.read_eq_some _ _ _).1 hread
    cases hl : assocLookup m.cells a with
    | none => simp [hl, hne.symm] at hget
    | some w =>
      obtain rfl : w = v := by simpa [hl] using hget
      exact mem_of_assocLookup _ hl

/-- The length is where the reads end. -/
theorem Memory.len_le_of_read_eq {m n : Memory} (h : ∀ a, m.read a = n.read a) : m.len ≤ n.len :=
  (Memory.read_eq_none m n.len).1 ((h n.len).trans ((Memory.read_eq_none n n.len).2 (Nat.le_refl _)))

/-- Settles O47: the reads give the length and the entries. -/
theorem equalTapesAreEqualData : Obligations.EqualTapesAreEqualData := by
  unfold Obligations.EqualTapesAreEqualData
  intro m n hm hn hread
  have hlen : m.len = n.len :=
    Nat.le_antisymm (Memory.len_le_of_read_eq hread) (Memory.len_le_of_read_eq fun a => (hread a).symm)
  have hcells : m.cells = n.cells :=
    eq_of_keysRising ((Memory.wf_iff m).1 hm).1 ((Memory.wf_iff n).1 hn).1 fun ⟨a, v⟩ => by
      rw [Memory.mem_cells_iff hm, Memory.mem_cells_iff hn, hread a]
  obtain ⟨⟩ := m
  obtain ⟨⟩ := n
  simp_all

theorem State.growIfAtEnd_tape_wf {s : State} (h : s.tape.wf = true) : s.growIfAtEnd.tape.wf = true := by
  unfold State.growIfAtEnd
  split
  · exact Memory.wf_grow _ _ h
  · exact h

/-- No instruction breaks the canonical form. -/
theorem Effect.tape_wf {i : Instr} {s t : State} (h : Effect s i t) (hwf : s.tape.wf = true) : t.tape.wf = true := by
  cases h with
  | movedRight => exact State.growIfAtEnd_tape_wf (s := s.setCur (s.cur + 1)) hwf
  | computed v hi hcell => exact Memory.wf_write _ _ v hwf hcell
  | received b rest hinp hcell => exact Memory.wf_write _ _ b hwf hcell
  | _ => exact hwf

/-- A load step leaves the tape as it is or makes a fresh one. -/
theorem State.loadStep_tape_wf {s : State} (stage : LoadStage) (hwf : s.tape.wf = true) :
    (s.loadStep stage).tape.wf = true := by
  cases stage with
  | filter k =>
    rw [State.loadStep]
    obtain ⟨-, h⟩ | ⟨b, prog, -, -, h⟩ | h := s.filterStep_cases k
    · rwa [h]
    · rwa [h]
    · rwa [h]
  | build i =>
    rw [State.loadStep]
    obtain ⟨-, -, h⟩ | ⟨op, b, -, -, h⟩ | ⟨j, h⟩ := s.buildStep_cases i
    · rw [h]
      exact Memory.wf_zeros _
    · rwa [h]
    · rwa [h]

/-- Settles O46: reset and run start make a fresh tape, a load step keeps it, an instruction stores to an existing cell
or grows. -/
theorem everyStepKeepsTheTapeCanonical : Obligations.EveryStepKeepsTheTapeCanonical := by
  unfold Obligations.EveryStepKeepsTheTapeCanonical
  intro s t hwf h hok
  obtain ⟨r, -, hs⟩ | ⟨-, stage, hp, hs⟩ | ⟨-, hp, i, -, hs⟩ | ⟨-, hp, -, hs⟩ | ⟨-, hp, hs⟩ | ⟨-, c, hp, hs⟩ :=
    step_cases s
  case inr.inr.inl => exact (exec_effect (hs.symm.trans h)).tape_wf (hwf (by simp [hp]))
  all_goals cases hs.symm.trans h
  · exact Memory.wf_absent
  · exact State.loadStep_tape_wf stage (hwf (by simp [hp]))
  · exact hwf (by simp [hp])
  · exact hwf (by simp [hp])
  · exact absurd hp (hok c)

end Sys2Proof.Machine
end

section
/-! SUPPORT. The invariant of the whole machine: the reset state meets it, and from every state that does a step
answers a state that does. -/

namespace Sys2Proof.Machine

theorem Config.wf_iff (c : Config) :
    c.wf = true ↔ 1 ≤ c.tapeInit ∧ ∀ n, c.tapeCap = some n → c.tapeInit ≤ n := by
  unfold Config.wf
  cases c.tapeCap <;> simp

theorem State.phaseInv_of_running {s : State} (hp : s.phase = .running) (h : RunInv s) : s.PhaseInv := by
  simpa only [State.PhaseInv, hp] using h

theorem State.phaseInv_of_building {s : State} {i : Nat} (hp : s.phase = .loading (.build i))
    (hi : i ≤ s.prog.length) (h : BuilderInv s.prog i s.jt s.bstk) : s.PhaseInv := by
  simpa only [State.PhaseInv, hp] using ⟨hi, h⟩

theorem State.Inv.builderInv {s : State} {i : Nat} (h : s.Inv) (hp : s.phase = .loading (.build i)) :
    i ≤ s.prog.length ∧ BuilderInv s.prog i s.jt s.bstk := by
  have hphase := h.phaseOk
  simpa only [State.PhaseInv, hp] using hphase

/-- A failure asks nothing of the tape, `cur` and `pc` (60_exceptions.md R107). -/
theorem State.Inv.raise {s : State} (h : s.Inv) (c : Cause) : (s.raise c).Inv :=
  ⟨h.cfgOk, h.rstOk, fun hok => absurd rfl (hok c), h.progFits, trivial⟩

/-- A reset takes over the request's legal parameters. -/
theorem State.Inv.doReset {s : State} {r : ResetRequest} (h : s.Inv) (hr : s.env.rst = some r) :
    (s.doReset r).Inv :=
  ⟨h.rstOk r hr, fun _ hnone => (by cases hnone), fun _ => Memory.wf_absent, fun c _ => Nat.zero_le c, trivial⟩

/-- The filter keeps the program within `PROG_CAP`. -/
theorem length_le_of_filterByte_ok {cap : Option Nat} {prog prog' : List Instr} {b : Byte}
    (hfits : ∀ c, cap = some c → prog.length ≤ c) (h : filterByte cap prog b = .ok prog') (c : Nat)
    (hc : cap = some c) : prog'.length ≤ c := by
  obtain ⟨-, he⟩ | ⟨i, -, hroom, he⟩ | ⟨i, -, -, he⟩ := filterByte_cases cap prog b
  · cases he.symm.trans h
    exact hfits c hc
  · cases he.symm.trans h
    rw [List.length_append, List.length_singleton]
    exact (progFull_eq_false_iff _ _).1 hroom c hc
  · cases he.symm.trans h

/-- The filter stage ends in an empty builder, goes on with a program that fits, or raises. -/
theorem State.Inv.filterStep {s : State} {k : Nat} (h : s.Inv) (hp : s.phase = .loading (.filter k)) :
    (s.filterStep k).Inv := by
  have hwf : s.tape.wf = true := h.tapeOk (by simp [hp])
  obtain ⟨-, hs⟩ | ⟨b, prog, -, hok, hs⟩ | hs := s.filterStep_cases k
  · rw [hs]
    exact ⟨h.cfgOk, h.rstOk, fun _ => hwf, h.progFits,
      State.phaseInv_of_building (s := s.beginScan) rfl (Nat.zero_le _) (builderInv_start _)⟩
  · rw [hs]
    exact ⟨h.cfgOk, h.rstOk, fun _ => hwf, length_le_of_filterByte_ok h.progFits hok, trivial⟩
  · rw [hs]
    exact h.raise _

/-- Run start over a scanned program meets the invariant of a run. -/
theorem runInv_runStart {s : State} (hcfg : s.cfg.wf = true) (h : BuilderInv s.prog s.prog.length s.jt s.bstk)
    (haccepted : s.bstk = [] ∨ s.cfg.strictOpeners = false) : RunInv s.runStart := by
  obtain ⟨hinit, hcap⟩ := (Config.wf_iff s.cfg).1 hcfg
  refine ⟨hinit, Nat.zero_le _, rfl, h.table, fun hstrict i hi => ?_, hcap, fun _ => Nat.dvd_refl _⟩
  have hnil : s.bstk = [] := haccepted.resolve_right fun hfalse => by simp [hfalse] at hstrict
  rw [hnil] at h
  exact h.opener_paired hi

/-- The builder stage goes on with the builder's invariant, starts the run, or raises. -/
theorem State.Inv.buildStep {s : State} {i : Nat} (h : s.Inv) (hp : s.phase = .loading (.build i)) :
    (s.buildStep i).Inv := by
  obtain ⟨hle, hbuilder⟩ := h.builderInv hp
  obtain ⟨hend, haccepted, hs⟩ | ⟨op, b, hop, hok, hs⟩ | ⟨j, hs⟩ := s.buildStep_cases i
  · obtain rfl : i = s.prog.length := Nat.le_antisymm hle (List.getElem?_eq_none_iff.1 hend)
    rw [hs]
    exact ⟨h.cfgOk, h.rstOk, fun _ => Memory.wf_zeros _, h.progFits,
      State.phaseInv_of_running rfl (runInv_runStart h.cfgOk hbuilder haccepted)⟩
  · have hnext := builderInv_scanOpcode (b := ⟨s.jt, s.bstk⟩) hbuilder hop hok
    have hlt : i < s.prog.length := (List.getElem?_eq_some_iff.1 hop).1
    rw [hs]
    exact ⟨h.cfgOk, h.rstOk, fun _ => h.tapeOk (by simp [hp]), h.progFits,
      State.phaseInv_of_building rfl hlt hnext⟩
  · rw [hs]
    exact h.raise _

/-- A run goes on where the program and the table are the same and the rest is in range. -/
theorem RunInv.of_loaded {s t : State} (h : RunInv s)
    (hloaded : t.prog = s.prog ∧ t.jt = s.jt ∧ t.cfg = s.cfg ∧ t.src = s.src ∧ t.bstk = s.bstk)
    (hcell : t.cur < t.tape.len) (hpc : t.pc ≤ s.prog.length)
    (hfits : ∀ c, s.cfg.tapeCap = some c → t.tape.len ≤ c)
    (hblocks : (∀ c, s.cfg.tapeCap = some c → s.cfg.tapeInit ∣ c) → s.cfg.tapeInit ∣ t.tape.len) : RunInv t := by
  obtain ⟨hprog, hjt, hcfg, -, hbstk⟩ := hloaded
  refine ⟨hcell, hprog ▸ hpc, hbstk.trans h.noStack, ?_, ?_, ?_, ?_⟩
  · rw [hprog, hjt]
    exact h.table
  · rw [hprog, hjt, hcfg]
    exact h.strict
  · rw [hcfg]
    exact hfits
  · rw [hcfg]
    exact hblocks

theorem State.below_cap_of_not_atTapeCap {s : State} (h : s.atTapeCap = false) {c : Nat}
    (hc : s.cfg.tapeCap = some c) : s.cur + 1 < c := by
  by_contra hle
  have hat : s.atTapeCap = true := s.atTapeCap_iff.2 ⟨c, hc, Nat.le_of_not_lt hle⟩
  simp [h] at hat

/-- A growth below the capacity appends at least one cell. -/
theorem State.growthSize_pos {s : State} (hinit : 1 ≤ s.cfg.tapeInit)
    (hbelow : ∀ c, s.cfg.tapeCap = some c → s.tape.len < c) : 0 < s.growthSize := by
  cases hcap : s.cfg.tapeCap with
  | none => rwa [State.growthSize_of_unbounded hcap]
  | some c =>
    have := hbelow c hcap
    rw [State.growthSize_of_cap hcap]
    omega

/-- A growth is clipped to the capacity. -/
theorem State.len_add_growthSize_le {s : State} {c : Nat} (hcap : s.cfg.tapeCap = some c) (hfits : s.tape.len ≤ c) :
    s.tape.len + s.growthSize ≤ c := by
  rw [State.growthSize_of_cap hcap]
  omega

/-- Where the capacity has whole blocks and is not reached, the growth is one block: what is left is a positive
multiple of it. -/
theorem State.growthSize_eq_block {s : State}
    (hblocks : ∀ c, s.cfg.tapeCap = some c → s.cfg.tapeInit ∣ c) (hdvd : s.cfg.tapeInit ∣ s.tape.len)
    (hbelow : ∀ c, s.cfg.tapeCap = some c → s.tape.len < c) : s.growthSize = s.cfg.tapeInit := by
  cases hcap : s.cfg.tapeCap with
  | none => exact State.growthSize_of_unbounded hcap
  | some c =>
    have hroom : s.cfg.tapeInit ≤ c - s.tape.len :=
      Nat.le_of_dvd (Nat.sub_pos_of_lt (hbelow c hcap)) (Nat.dvd_sub (hblocks c hcap) hdvd)
    rw [State.growthSize_of_cap hcap, Nat.min_eq_left hroom]

/-- A move to the right below the capacity puts the cursor on an existing cell. -/
theorem State.movedRightTape_cell {s : State} (hinit : 1 ≤ s.cfg.tapeInit) (hcap : s.atTapeCap = false)
    (hcell : s.cur < s.tape.len) : s.cur + 1 < s.movedRightTape.len := by
  rw [State.movedRightTape_len]
  split
  · next hend =>
    have hpos := State.growthSize_pos hinit fun c hc => hend ▸ State.below_cap_of_not_atTapeCap hcap hc
    omega
  · omega

theorem State.movedRightTape_fits {s : State} {c : Nat} (hcap : s.cfg.tapeCap = some c) (hfits : s.tape.len ≤ c) :
    s.movedRightTape.len ≤ c := by
  rw [State.movedRightTape_len]
  split
  · exact State.len_add_growthSize_le hcap hfits
  · exact hfits

/-- A move to the right keeps a tape of whole blocks so. -/
theorem State.movedRightTape_blocks {s : State} (hcap : s.atTapeCap = false)
    (hblocks : ∀ c, s.cfg.tapeCap = some c → s.cfg.tapeInit ∣ c) (hdvd : s.cfg.tapeInit ∣ s.tape.len) :
    s.cfg.tapeInit ∣ s.movedRightTape.len := by
  rw [State.movedRightTape_len]
  split
  · next hend =>
    rw [State.growthSize_eq_block hblocks hdvd fun c hc => hend ▸ State.below_cap_of_not_atTapeCap hcap hc]
    exact Nat.dvd_add hdvd (Nat.dvd_refl _)
  · exact hdvd

/-- An instruction that does not fail keeps the invariant of the run. -/
theorem Effect.runInv {i : Instr} {s t : State} (h : Effect s i t) (hinv : RunInv s) (hcfg : s.cfg.wf = true)
    (hpc : s.pc < s.prog.length) (hok : ∀ c, t.phase ≠ .failed c) : RunInv t := by
  cases h with
  | raised => exact absurd rfl (hok _)
  | movedRight hcap =>
    obtain ⟨hinit, -⟩ := (Config.wf_iff s.cfg).1 hcfg
    exact hinv.of_loaded ⟨rfl, rfl, rfl, rfl, rfl⟩ (State.movedRightTape_cell hinit hcap hinv.cell) hpc
      (fun c hc => State.movedRightTape_fits hc (hinv.fits c hc))
      fun hblocks => State.movedRightTape_blocks hcap hblocks (hinv.blocks hblocks)
  | movedLeft =>
    exact hinv.of_loaded ⟨rfl, rfl, rfl, rfl, rfl⟩ (Nat.lt_of_le_of_lt (Nat.sub_le _ _) hinv.cell) hpc hinv.fits
      hinv.blocks
  | blocked => exact hinv
  | jumped hi j hj =>
    obtain ⟨-, hjlt⟩ := hinv.table.inRange _ _ hj
    exact hinv.of_loaded ⟨rfl, rfl, rfl, rfl, rfl⟩ hinv.cell hjlt hinv.fits hinv.blocks
  | _ => exact hinv.of_loaded ⟨rfl, rfl, rfl, rfl, rfl⟩ hinv.cell hpc hinv.fits hinv.blocks

/-- An instruction of a run keeps the whole invariant. -/
theorem State.Inv.exec {i : Instr} {s t : State} (h : s.Inv) (hrun : s.phase = .running)
    (hi : s.prog[s.pc]? = some i) (ht : exec i s = .next t) : t.Inv := by
  have heffect : Effect s i t := exec_effect ht
  obtain ⟨hprog, -, hcfg, -⟩ := exec_next_keeps_loaded ht
  obtain ⟨hrst, -⟩ := heffect.env_frame
  have hpc : s.pc < s.prog.length := (List.getElem?_eq_some_iff.1 hi).1
  refine ⟨hcfg ▸ h.cfgOk, hrst ▸ h.rstOk, fun _ => heffect.tape_wf (h.tapeOk (by simp [hrun])), ?_, ?_⟩
  · rw [hcfg, hprog]
    exact h.progFits
  · obtain hkeep | ⟨c, hc, -⟩ := exec_next_phase ht
    · have hrun' : t.phase = .running := hkeep.trans hrun
      exact State.phaseInv_of_running hrun' (heffect.runInv (h.runInv hrun) h.cfgOk hpc (by simp [hrun']))
    · simp only [State.PhaseInv, hc]

/-- A run that halts stands at its program's end. -/
theorem State.Inv.halt {s : State} (h : s.Inv) (hrun : s.phase = .running) (hend : s.prog.length ≤ s.pc) :
    s.halt.Inv := by
  have hinv : RunInv s := h.runInv hrun
  have hhalt : RunInv s.halt :=
    hinv.of_loaded ⟨rfl, rfl, rfl, rfl, rfl⟩ hinv.cell hinv.pcInRange hinv.fits hinv.blocks
  exact ⟨h.cfgOk, h.rstOk, fun _ => h.tapeOk (by simp [hrun]), h.progFits,
    hhalt, Nat.le_antisymm hinv.pcInRange hend⟩

/-- In a run every instruction answers: the current cell exists, and a closer has its entry. -/
theorem RunInv.exec_answers {s : State} {i : Instr} (h : RunInv s) (hi : s.prog[s.pc]? = some i) :
    ∃ t, Machine.exec i s = .next t := by
  obtain ⟨v, hv⟩ := h.exists_read
  cases i with
  | moveRight =>
    cases hcap : s.atTapeCap with
    | true => exact ⟨_, (execMoveRight_next_iff s _).2 (.inl ⟨hcap, rfl⟩)⟩
    | false => exact ⟨_, (execMoveRight_next_iff s _).2 (.inr ⟨hcap, rfl⟩)⟩
  | moveLeft => exact ⟨_, (execMoveLeft_next s _).2 rfl⟩
  | increment => exact ⟨_, (execIncrement_next s _).2 ⟨v, hv, h.cell, rfl⟩⟩
  | decrement => exact ⟨_, (execDecrement_next s _).2 ⟨v, hv, h.cell, rfl⟩⟩
  | output =>
    simp only [Machine.exec, execOutput]
    rw [s.withCurrentCell_of_read _ hv]
    obtain ⟨ans, he⟩ | ⟨ans, he⟩ | ⟨-, -, he⟩ := s.env.outWrite_cases v
    · exact ⟨_, by rw [he]⟩
    · exact ⟨_, by rw [he]⟩
    · exact ⟨_, by rw [he]⟩
  | input =>
    obtain ⟨b, rest, hinp, -⟩ | ⟨hinp, hclosed, -⟩ | ⟨hinp, hopen, he⟩ := s.env.inRead_cases
    · exact ⟨_, (exec_input_of_cons hinp).trans (State.storeCell_of_lt _ b h.cell)⟩
    · exact ⟨_, exec_input_of_closed hinp hclosed⟩
    · exact ⟨s, by simp only [Machine.exec, execInput, he, State.wait_eq]⟩
  | jumpIfZero =>
    by_cases h0 : v = 0#8
    · subst h0
      cases hj : s.jt.lookup s.pc with
      | some j => exact ⟨_, exec_jumpIfZero_of_zero hv hj⟩
      | none => exact ⟨_, exec_jumpIfZero_of_unpaired hv hj⟩
    · exact ⟨_, exec_jumpIfZero_of_ne_zero hv h0⟩
  | jumpIfNonzero =>
    obtain ⟨j, hj, -⟩ := h.table.closer_paired_below hi
    obtain ⟨t, ht, -⟩ := exec_jumpIfNonzero_keeps_phase hv hj
    exact ⟨t, ht⟩

/-- Settles O44: nothing is loaded, the tape is absent, the parameters are legal. -/
theorem resetStateMeetsTheInvariant : Obligations.ResetStateMeetsTheInvariant := by
  unfold Obligations.ResetStateMeetsTheInvariant
  exact ⟨rfl, fun r hr => (by cases hr), fun _ => State.reset_tape_wf, fun c hc => (by cases hc), trivial⟩

/-- Settles O45: each case of the step answers, and keeps the invariant by a lemma of its own. -/
theorem everyStepAnswersAndKeepsTheInvariant : Obligations.EveryStepAnswersAndKeepsTheInvariant := by
  unfold Obligations.EveryStepAnswersAndKeepsTheInvariant
  intro s h
  obtain ⟨r, hr, hs⟩ | ⟨-, stage, hp, hs⟩ | ⟨-, hrun, i, hi, hs⟩ | ⟨-, hrun, hend, hs⟩ | ⟨-, -, hs⟩ | ⟨-, c, -, hs⟩ :=
    step_cases s
  · exact ⟨_, hs, h.doReset hr⟩
  · cases stage with
    | filter k => exact ⟨_, hs, h.filterStep hp⟩
    | build i => exact ⟨_, hs, h.buildStep hp⟩
  · obtain ⟨t, ht⟩ := (h.runInv hrun).exec_answers hi
    exact ⟨t, hs.trans ht, h.exec hrun hi ht⟩
  · exact ⟨_, hs, h.halt hrun hend⟩
  · exact ⟨s, hs, h⟩
  · exact ⟨s, hs, h⟩

end Sys2Proof.Machine
end

section
/-! SUPPORT. Brackets in a run (44_control.md): what the table's properties mean for control. -/

namespace Sys2Proof.Machine

/-- The two ends of a pair, from its lower index. -/
theorem TableInv.pair_ends {p : List Instr} {n : Nat} {jt : JumpTable} (h : TableInv p n jt) {i j : Nat}
    (hij : jt.lookup i = some j) (hlt : i < j) : p[i]? = some .jumpIfZero ∧ p[j]? = some .jumpIfNonzero := by
  obtain ⟨hi, hj, -⟩ | ⟨-, -, hgt⟩ := h.directed i j hij
  · exact ⟨hi, hj⟩
  · exact absurd hlt (Nat.lt_asymm hgt)

/-- Settles O39: only an opener without an entry raises JumpTargetMissing, and a strict machine has none. -/
theorem strictMachineNeverMissesAJumpTarget : Obligations.StrictMachineNeverMissesAJumpTarget := by
  unfold Obligations.StrictMachineNeverMissesAJumpTarget
  intro s t hinv hstrict hrun hr h i hfailed
  cases hop : s.prog[s.pc]? with
  | none =>
    cases (step_of_no_instruction hr hrun hop).symm.trans h
    cases hfailed
  | some op =>
    have hraise := mayRaise_of_exec_failed hrun ((step_of_fetched hr hrun hop).symm.trans h) hfailed
    cases op with
    | jumpIfZero =>
      obtain ⟨-, hnone, -⟩ := hraise
      obtain ⟨j, hj⟩ := (hinv.runInv hrun).strict hstrict s.pc hop
      cases hnone.symm.trans hj
    | moveRight =>
      obtain ⟨hcause, -⟩ := hraise
      cases hcause
    | output | input => cases hraise
    | moveLeft | increment | decrement | jumpIfNonzero => exact hraise

/-- Settles O42: each end of the pair by the test of the cell; the table gives the other end. -/
theorem pairedLoopArrivals : Obligations.PairedLoopArrivals := by
  unfold Obligations.PairedLoopArrivals
  intro s i j v hinv hrun hr hij hlt hv hpc
  have htable := (hinv.runInv hrun).table
  obtain ⟨hopener, hcloser⟩ := htable.pair_ends hij hlt
  obtain rfl | rfl := hpc
  · rw [step_of_fetched hr hrun hopener]
    by_cases h0 : v = 0#8
    · subst h0
      rw [exec_jumpIfZero_of_zero hv hij, if_pos rfl]
      rfl
    · rw [exec_jumpIfZero_of_ne_zero hv h0, if_neg h0]
      rfl
  · rw [step_of_fetched hr hrun hcloser]
    by_cases h0 : v = 0#8
    · subst h0
      rw [exec_jumpIfNonzero_of_zero hv, if_pos rfl]
      rfl
    · rw [exec_jumpIfNonzero_of_ne_zero hv h0 (htable.symm _ _ hij), if_neg h0]
      rfl

/-- Settles O43: the jump back to the opener continues at the closer itself, so that the step leaves the state. -/
theorem emptyLoopSpinsForEver : Obligations.EmptyLoopSpinsForEver := by
  unfold Obligations.EmptyLoopSpinsForEver
  intro s i v hr hrun hpc hcloser hi hv h0 n
  have hback : (s.setPc i).advance = s := by
    simp only [State.advance, State.setPc, ← hpc]
  have hstep : step s = .next s := by
    rw [step_of_fetched hr hrun hcloser, exec_jumpIfNonzero_of_ne_zero hv h0 hi, hback]
  exact runSteps_of_step_self hstep n

/-- A jump from past an unpaired opener does not come back to it: forward it goes further, and the pair of a jump
backward would span it. -/
theorem TableInv.lt_target_of_unpaired {p : List Instr} {jt : JumpTable} (h : TableInv p p.length jt) {k pc j : Nat}
    (hk : p[k]? = some .jumpIfZero) (hnone : jt.lookup k = none) (hle : k ≤ pc) (hj : jt.lookup pc = some j) :
    k < j + 1 := by
  have hne : k ≠ pc := by
    rintro rfl
    cases hnone.symm.trans hj
  have hklen : k < p.length := (List.getElem?_eq_some_iff.1 hk).1
  obtain ⟨-, -, hforward⟩ | ⟨-, -, hback⟩ := h.directed pc j hj
  · omega
  · have := h.unspanned k hklen hk hnone j pc (h.symm _ _ hj) hback
    omega

/-- Settles O52: every other step goes to the next index, and a blocked instruction is no opener. -/
theorem unpairedOpenerIsPassedForGood : Obligations.UnpairedOpenerIsPassedForGood := by
  unfold Obligations.UnpairedOpenerIsPassedForGood
  intro s t k hinv hrun hr hk hnone hle h hrun'
  cases hop : s.prog[s.pc]? with
  | none =>
    cases (step_of_no_instruction hr hrun hop).symm.trans h
    cases hrun'
  | some op =>
    cases exec_effect ((step_of_fetched hr hrun hop).symm.trans h) with
    | raised => cases hrun'
    | blocked hi =>
      have hne : k ≠ s.pc := by
        rintro rfl
        obtain rfl : op = .jumpIfZero := by simpa [hop] using hk
        simp at hi
      omega
    | jumped hi j hj => exact (hinv.runInv hrun).table.lt_target_of_unpaired hk hnone hle hj
    | _ => exact Nat.lt_succ_of_le hle

end Sys2Proof.Machine
end

section
/-! SUPPORT. Laws of sequences: arithmetic on one cell (40_execution_cycle.md section 2) and cursor moves
(41_pointer.md). -/

namespace Sys2Proof.Machine

/-- What an arithmetic instruction adds to the current cell, modulo 256. -/
def addedBy : Instr → Nat
  | .increment => 1
  | .decrement => 255
  | .moveRight | .moveLeft | .output | .input | .jumpIfZero | .jumpIfNonzero => 0

/-- Both arithmetic instructions in one law: `incrementResult` and `decrementResult` by what is added. -/
theorem exec_arithmetic {i : Instr} {s : State} {v : Byte} (hi : i = .increment ∨ i = .decrement)
    (hrun : s.phase = .running) (hv : s.tape.read s.effectiveAddress = some v) :
    ∃ m w, exec i s = .next { s with tape := m, pc := s.pc + 1 } ∧ m.len = s.tape.len ∧
      m.read s.effectiveAddress = some w ∧ w.toNat = (v.toNat + addedBy i) % 256 ∧
      ∀ a, a ≠ s.effectiveAddress → m.read a = s.tape.read a := by
  obtain rfl | rfl := hi
  · obtain ⟨m, hexec, hlen, ⟨w, hw, hval⟩, hframe⟩ := incrementResult s v hrun hv
    exact ⟨m, w, hexec, hlen, hw, hval, hframe⟩
  · obtain ⟨m, hexec, hlen, ⟨w, hw, hval⟩, hframe⟩ := decrementResult s v hrun hv
    exact ⟨m, w, hexec, hlen, hw, hval, hframe⟩

/-- What a sequence adds, from its first instruction. -/
theorem count_arithmetic_cons {i : Instr} (hi : i = .increment ∨ i = .decrement) (l : List Instr) :
    (i :: l).count .increment + 255 * (i :: l).count .decrement =
      addedBy i + (l.count .increment + 255 * l.count .decrement) := by
  obtain rfl | rfl := hi
  · rw [List.count_cons_self, List.count_cons_of_ne (by decide), addedBy]
    omega
  · rw [List.count_cons_self, List.count_cons_of_ne (by decide), addedBy]
    omega

/-- Settles O40: by induction on the sequence; the remainders modulo 256 add up. -/
theorem cellArithmeticIsAGroup : Obligations.CellArithmeticIsAGroup := by
  unfold Obligations.CellArithmeticIsAGroup
  intro l
  induction l with
  | nil =>
    intro s v _ _ hv
    refine ⟨s.tape, rfl, rfl, ⟨v, hv, ?_⟩, fun _ _ => rfl⟩
    exact (Nat.mod_eq_of_lt v.isLt).symm
  | cons i l ih =>
    intro s v hl hrun hv
    have hi := hl i List.mem_cons_self
    obtain ⟨m, w, hexec, hlen, hw, hval, hframe⟩ := exec_arithmetic hi hrun hv
    obtain ⟨m', hseq, hlen', ⟨w', hw', hval'⟩, hframe'⟩ :=
      ih { s with tape := m, pc := s.pc + 1 } w (fun j hj => hl j (List.mem_cons_of_mem _ hj)) hrun hw
    refine ⟨m', ?_, hlen'.trans hlen, ⟨w', hw', ?_⟩, fun a ha => (hframe' a ha).trans (hframe a ha)⟩
    · rw [execSeq_cons_of_exec l hexec, hseq, List.length_cons]
      simp only [Nat.add_assoc, Nat.add_comm 1]
    · have hcount := count_arithmetic_cons hi l
      omega

/-- `n` moves to the left end at the clamp, everything else but `pc` unchanged. -/
theorem execSeq_replicate_moveLeft (n : Nat) (s : State) :
    execSeq (List.replicate n .moveLeft) s = .next { s with cur := s.cur - n, pc := s.pc + n } := by
  induction n generalizing s with
  | zero => rfl
  | succ n ih =>
    have hexec : exec .moveLeft s = .next { s with cur := s.cur - 1, pc := s.pc + 1 } := (execMoveLeft_next s _).2 rfl
    rw [List.replicate_succ, execSeq_cons_of_exec _ hexec, ih]
    simp only [Nat.sub_sub, Nat.add_assoc, Nat.add_comm 1]

/-- On an unbounded tape `n` moves to the right go up by `n`, onto an existing cell, and keep every old cell. -/
theorem execSeq_replicate_moveRight (n : Nat) {s : State} (hcap : s.cfg.tapeCap = none) (hinit : 1 ≤ s.cfg.tapeInit)
    (hcell : s.cur < s.tape.len) :
    ∃ m, execSeq (List.replicate n .moveRight) s = .next { s with cur := s.cur + n, tape := m, pc := s.pc + n } ∧
      s.cur + n < m.len ∧ ∀ a, a < s.tape.len → m.read a = s.tape.read a := by
  induction n generalizing s with
  | zero => exact ⟨s.tape, rfl, hcell, fun _ _ => rfl⟩
  | succ n ih =>
    have hexec : exec .moveRight s = .next { s with cur := s.cur + 1, tape := s.movedRightTape, pc := s.pc + 1 } :=
      execMoveRight_of_below_cap (by simp [hcap])
    have hlen := s.movedRightTape_len
    rw [State.growthSize_of_unbounded hcap] at hlen
    have hgrown : s.tape.len ≤ s.movedRightTape.len ∧ s.cur + 1 < s.movedRightTape.len := by
      split at hlen
      · omega
      · omega
    obtain ⟨m, hseq, hcell', hread⟩ :=
      ih (s := { s with cur := s.cur + 1, tape := s.movedRightTape, pc := s.pc + 1 }) hcap hinit hgrown.2
    refine ⟨m, ?_, ?_, fun a ha => ?_⟩
    · rw [List.replicate_succ, execSeq_cons_of_exec _ hexec, hseq]
      simp only [Nat.add_assoc, Nat.add_comm 1]
    · simp only at hcell'
      omega
    · exact (hread a (Nat.lt_of_lt_of_le ha hgrown.1)).trans (s.movedRightTape_read_of_lt ha)

/-- Settles O41: the moves of each direction, one sequence after the other. -/
theorem cursorMovesCompose : Obligations.CursorMovesCompose := by
  unfold Obligations.CursorMovesCompose
  refine fun s n _ hcap hinit hcell => ⟨?_, execSeq_replicate_moveLeft n s⟩
  obtain ⟨m, hright, hcell', hread⟩ := execSeq_replicate_moveRight n hcap hinit hcell
  refine ⟨m, hright, hcell', hread, ?_⟩
  rw [execSeq_append _ hright, execSeq_replicate_moveLeft]
  simp only [Nat.add_sub_cancel]

end Sys2Proof.Machine
end

section
/-! SUPPORT. The host's side (70_reset_and_hazards.md section 3) and the model's placement of one instruction
(log 19). -/

namespace Sys2Proof.Machine

/-- A host move is a change of the environment. -/
theorem State.hostMove_eq_setEnv (s : State) (m : HostMove) : s.hostMove m = s.setEnv (s.hostMove m).env := by
  cases m with
  | supplyInput bytes =>
    simp only [State.hostMove]
    split
    · rfl
    · rfl
  | closeInput | settleAnswers | reset => rfl

/-- No host move touches what the output port has accepted. -/
theorem State.hostMove_out (s : State) (m : HostMove) :
    (s.hostMove m).env.out = s.env.out ∧ (s.hostMove m).env.outPast = s.env.outPast := by
  cases m with
  | supplyInput bytes =>
    simp only [State.hostMove]
    split
    · exact ⟨rfl, rfl⟩
    · exact ⟨rfl, rfl⟩
  | closeInput | settleAnswers | reset => exact ⟨rfl, rfl⟩

/-- A closed input takes no more bytes. -/
theorem State.hostMove_supplyInput_of_closed {s : State} (bytes : List Byte) (h : s.env.inClosed = true) :
    s.hostMove (.supplyInput bytes) = s :=
  if_pos h

/-- Settles O53: the status of a raise is its cause's code and info. -/
theorem statusShowsPhaseCodeAndInfo : Obligations.StatusShowsPhaseCodeAndInfo := by
  unfold Obligations.StatusShowsPhaseCodeAndInfo
  refine fun s => ⟨fun stage hp => ?_, fun hp => ?_, fun hp => ?_, fun i => rfl, rfl, rfl, fun i => rfl, rfl, rfl⟩
  · simp only [State.status, hp]
  · simp only [State.status, hp]
  · simp only [State.status, hp]

/-- Settles O54: every move is a change of the environment that keeps the logs. -/
theorem hostMovesLeaveTheCoreAlone : Obligations.HostMovesLeaveTheCoreAlone := by
  unfold Obligations.HostMovesLeaveTheCoreAlone
  refine fun s m => ⟨⟨(s.hostMove m).env, ?_, s.hostMove_out m⟩, fun bytes => ?_⟩
  · rw [← s.hostMove_eq_setEnv m]
    exact .refl _
  · rw [State.hostMove_supplyInput_of_closed bytes rfl]
    exact .refl _

/-- Each instruction stands at its index in the program it is placed with. -/
theorem placedProgram_getElem? (i : Instr) : (placedProgram i).1[(placedProgram i).2]? = some i := by
  cases i <;> rfl

theorem State.madeRunning_phase (s : State) : s.madeRunning.phase = .running := by
  unfold State.madeRunning
  cases hp : s.phase with
  | running => exact hp
  | loading | halted | failed => rfl

theorem State.madeRunning_rst (s : State) : s.madeRunning.env.rst = none := rfl

/-- Settles O20: a placed instruction is fetched by a running engine with no reset pending. -/
theorem placedWordIsRunByTheNextStep : Obligations.PlacedWordIsRunByTheNextStep := by
  unfold Obligations.PlacedWordIsRunByTheNextStep
  intro s w i hw
  have hplaced : s.withFetchWord 8 w = s.withLoaded (placedProgram i).1 (placedProgram i).2 := by
    simp only [State.withFetchWord, State.placeWord, hw]
  rw [hplaced]
  exact step_of_fetched s.madeRunning_rst s.madeRunning_phase (placedProgram_getElem? i)

end Sys2Proof.Machine
end

section
/-! SUPPORT. Changes of the state that an instruction cannot see: another environment, for the six that make no port
transaction (40_execution_cycle.md section 1), and another tape length and block size (10_state.md section 3). -/

namespace Sys2Proof.Machine

/-- Change the next state of an answer; a stop stays as it is. -/
def mapNext (f : State → State) : Host.Outcome State Fault Refusal → Host.Outcome State Fault Refusal
  | .next t => .next (f t)
  | .fault r => .fault r
  | .refused r => .refused r

@[simp] theorem mapNext_next (f : State → State) (t : State) : mapNext f (.next t) = .next (f t) := rfl
@[simp] theorem mapNext_fault (f : State → State) (r : Fault) : mapNext f (.fault r) = .fault r := rfl

/-- The change `f` is one that the shared operations do not see at `s`: what they read is the same, and what they write
can be written before the change or after it. -/
structure UnseenAt (f : State → State) (s : State) : Prop where
  pc : ∀ t, (f t).pc = t.pc
  cur : (f s).cur = s.cur
  cell : (f s).currentCell = s.currentCell
  paired : (f s).pairedIndex = s.pairedIndex
  setPc : ∀ t v, (f t).setPc v = f (t.setPc v)
  setCur : ∀ t v, (f t).setCur v = f (t.setCur v)
  raise : ∀ c, (f s).raise c = f (s.raise c)
  store : ∀ v, (f s).storeCell v = mapNext f (s.storeCell v)

theorem UnseenAt.advance {f : State → State} {s : State} (h : UnseenAt f s) : (f s).advance = f s.advance := by
  rw [State.advance, State.advance, h.setPc, h.pc]

/-- Using the current cell does not see the change where the continuation does not. -/
theorem UnseenAt.withCurrentCell {f : State → State} {s : State} (h : UnseenAt f s)
    {k k' : Byte → Host.Outcome State Fault Refusal} (hk : ∀ v, k' v = mapNext f (k v)) :
    (f s).withCurrentCell k' = mapNext f (s.withCurrentCell k) := by
  unfold State.withCurrentCell
  rw [h.cell]
  cases s.currentCell with
  | some v => exact hk v
  | none =>
    simp only [State.effectiveAddress, h.cur]
    rfl

/-- Continuing after a paired index does not see the change. -/
theorem UnseenAt.jump {f : State → State} {s : State} (h : UnseenAt f s) (j : Nat) :
    ((f s).setPc j).advance = f (s.setPc j).advance := by
  simp only [State.advance, h.setPc, h.pc]

/-- Five of the instructions use nothing but those operations. -/
theorem UnseenAt.exec_eq {f : State → State} {s : State} (h : UnseenAt f s) {i : Instr} (hright : i ≠ .moveRight)
    (hout : i ≠ .output) (hin : i ≠ .input) : exec i (f s) = mapNext f (exec i s) := by
  cases i with
  | moveRight => exact absurd rfl hright
  | output => exact absurd rfl hout
  | input => exact absurd rfl hin
  | moveLeft =>
    have hleft : ∀ t : State, exec .moveLeft t = .next ((t.setCur (t.cur - 1)).setPc (t.pc + 1)) := fun t =>
      (execMoveLeft_next t _).2 rfl
    rw [hleft, hleft, h.setCur, h.setPc, h.cur, h.pc, mapNext_next]
  | increment => exact h.withCurrentCell fun v => h.store _
  | decrement => exact h.withCurrentCell fun v => h.store _
  | jumpIfZero =>
    refine h.withCurrentCell fun v => ?_
    split
    · rw [h.paired]
      cases s.pairedIndex with
      | some j => exact congrArg _ (h.jump j)
      | none =>
        simp only [h.pc, h.raise]
        rfl
    · exact congrArg _ h.advance
  | jumpIfNonzero =>
    refine h.withCurrentCell fun v => ?_
    split
    · rw [h.paired]
      cases s.pairedIndex with
      | some j => exact congrArg _ (h.jump j)
      | none =>
        simp only [h.pc]
        rfl
    · exact congrArg _ h.advance

/-- Storing looks at the tape only. -/
theorem unseenAt_setEnv (s : State) (e : Env) : UnseenAt (·.setEnv e) s := by
  refine ⟨fun _ => rfl, rfl, rfl, rfl, fun _ _ => rfl, fun _ _ => rfl, fun _ => rfl, fun v => ?_⟩
  obtain ⟨hlt, hs⟩ | ⟨hle, hs⟩ := s.storeCell_cases v
  · rw [hs]
    exact State.storeCell_of_lt (s.setEnv e) v hlt
  · rw [hs]
    exact State.storeCell_of_missing (s := s.setEnv e) v hle

theorem movedRightTape_setEnv (s : State) (e : Env) : (s.setEnv e).movedRightTape = s.movedRightTape := by
  by_cases hend : s.cur + 1 = s.tape.len
  · simp [State.movedRightTape, State.growIfAtEnd, State.growthSize, hend]
  · simp [State.movedRightTape, State.growIfAtEnd, hend]

theorem movedRight_setEnv (s : State) (e : Env) : (s.setEnv e).movedRight = s.movedRight.setEnv e := by
  simp only [State.movedRight, movedRightTape_setEnv]
  rfl

theorem execMoveRight_setEnv (s : State) (e : Env) :
    execMoveRight (s.setEnv e) = mapNext (·.setEnv e) (execMoveRight s) := by
  cases hcap : s.atTapeCap with
  | true =>
    rw [(execMoveRight_next_iff s _).2 (.inl ⟨hcap, rfl⟩)]
    exact (execMoveRight_next_iff (s.setEnv e) _).2 (.inl ⟨hcap, rfl⟩)
  | false =>
    rw [(execMoveRight_next_iff s _).2 (.inr ⟨hcap, rfl⟩)]
    exact (execMoveRight_next_iff (s.setEnv e) _).2 (.inr ⟨hcap, (movedRight_setEnv s e).symm⟩)

/-- The six do in any environment what they do in this one, and carry it along. -/
theorem exec_setEnv {i : Instr} (hout : i ≠ .output) (hin : i ≠ .input) (s : State) (e : Env) :
    exec i (s.setEnv e) = mapNext (·.setEnv e) (exec i s) := by
  by_cases hright : i = .moveRight
  · subst hright
    exact execMoveRight_setEnv s e
  · exact (unseenAt_setEnv s e).exec_eq hright hout hin

/-- Settles O50: in this very environment the same law says that the environment is carried along. -/
theorem otherSixInstructionsIgnoreThePorts : Obligations.OtherSixInstructionsIgnoreThePorts := by
  unfold Obligations.OtherSixInstructionsIgnoreThePorts
  refine fun i s e hout hin _ => ⟨fun t h => ⟨?_, t.setEnv e, ?_, .refl _⟩, fun r h => ?_⟩
  · have hself : exec i s = mapNext (·.setEnv s.env) (exec i s) := exec_setEnv hout hin s s.env
    rw [h] at hself
    have hnext : t = t.setEnv s.env := by simpa using hself
    have henv := congrArg State.env hnext
    exact henv
  · rw [exec_setEnv hout hin, h, mapNext_next]
  · rw [exec_setEnv hout hin, h, mapNext_fault]

/-- A cell that exists at both lengths reads the same. -/
theorem Memory.read_of_len {m : Memory} {len a : Nat} (ha : a < m.len) (ha' : a < len) :
    Memory.read { m with len := len } a = m.read a := by
  simp only [Memory.read, ha, ha', if_true]

theorem storeCell_withTapeShape {s : State} {len : Nat} (block : Nat) (hcell : s.cur < s.tape.len)
    (hcell' : s.cur < len) (v : Byte) :
    (s.withTapeShape len block).storeCell v = mapNext (·.withTapeShape len block) (s.storeCell v) := by
  rw [State.storeCell_of_lt s v hcell]
  exact State.storeCell_of_lt (s.withTapeShape len block) v hcell'

/-- Where the current cell exists at both lengths, the shape is not seen. -/
theorem unseenAt_withTapeShape {s : State} {len : Nat} (block : Nat) (hcell : s.cur < s.tape.len)
    (hcell' : s.cur < len) : UnseenAt (·.withTapeShape len block) s :=
  ⟨fun _ => rfl, rfl, Memory.read_of_len hcell hcell', rfl, fun _ _ => rfl, fun _ _ => rfl, fun _ => rfl,
    storeCell_withTapeShape block hcell hcell'⟩

/-- Every instruction but move-right does the same at both lengths, and keeps them. -/
theorem exec_withTapeShape {i : Instr} (hright : i ≠ .moveRight) {s : State} {len : Nat} (block : Nat)
    (hcell : s.cur < s.tape.len) (hcell' : s.cur < len) :
    exec i (s.withTapeShape len block) = mapNext (·.withTapeShape len block) (exec i s) := by
  have hunseen := unseenAt_withTapeShape block hcell hcell'
  by_cases hout : i = .output
  · subst hout
    refine hunseen.withCurrentCell fun v => ?_
    have henv : (s.withTapeShape len block).env = s.env := rfl
    rw [henv]
    cases s.env.outWrite v with
    | accepted e | failed e | pending => rfl
  by_cases hin : i = .input
  · subst hin
    have henv : (s.withTapeShape len block).env = s.env := rfl
    simp only [exec, execInput, henv]
    cases s.env.inRead with
    | byte b e => exact storeCell_withTapeShape (s := s.setEnv e) block hcell hcell' b
    | closed | pending => rfl
  exact hunseen.exec_eq hright hout hin

/-- At both shapes a move to the right writes the same cells. -/
theorem movedRight_withTapeShape (s : State) (len block : Nat) :
    (s.withTapeShape len block).movedRight =
      s.movedRight.withTapeShape (s.withTapeShape len block).movedRightTape.len block := by
  have hcells : (s.withTapeShape len block).movedRightTape.cells = s.movedRightTape.cells := by
    simp only [State.movedRightTape, State.growIfAtEnd_cells]
    rfl
  simp only [State.movedRight, State.withTapeShape, ← hcells]

/-- No instruction but move-right moves the cursor up. -/
theorem Effect.cur_le {i : Instr} {s t : State} (h : Effect s i t) (hi : i ≠ .moveRight) : t.cur ≤ s.cur := by
  cases h with
  | movedRight => exact absurd rfl hi
  | movedLeft => exact Nat.sub_le _ _
  | _ => exact Nat.le_refl _

/-- The current cell exists, and the tape is within its capacity. -/
def State.CellFits (s : State) : Prop :=
  s.cur < s.tape.len ∧ ∀ c, s.cfg.tapeCap = some c → s.tape.len ≤ c

theorem State.CellFits.movedRight {s : State} (h : s.CellFits) (hinit : 1 ≤ s.cfg.tapeInit)
    (hcap : s.atTapeCap = false) : s.movedRight.CellFits :=
  ⟨State.movedRightTape_cell hinit hcap h.1, fun c hc => State.movedRightTape_fits hc (h.2 c hc)⟩

theorem State.CellFits.exec {i : Instr} {s t : State} (h : s.CellFits) (hright : i ≠ .moveRight)
    (ht : exec i s = .next t) : t.CellFits := by
  have heffect : Effect s i t := exec_effect ht
  obtain ⟨-, -, hcfg, -⟩ := exec_next_keeps_loaded ht
  rw [State.CellFits, heffect.len_eq hright, hcfg]
  exact ⟨Nat.lt_of_le_of_lt (heffect.cur_le hright) h.1, h.2⟩

/-- An instruction at one shape is the instruction at the other, up to the shape; where it does not fail, the current
cell exists and the tape fits at both. -/
theorem exec_next_withTapeShape {i : Instr} {s t : State} {len block : Nat} (hinit : 1 ≤ s.cfg.tapeInit)
    (hblock : 1 ≤ block) (hfits : s.CellFits) (hfits' : (s.withTapeShape len block).CellFits)
    (h : exec i s = .next t) :
    ∃ len', exec i (s.withTapeShape len block) = .next (t.withTapeShape len' block) ∧
      ((∀ c, t.phase ≠ .failed c) → t.CellFits ∧ (t.withTapeShape len' block).CellFits) := by
  by_cases hright : i = .moveRight
  · subst hright
    obtain ⟨hcap, rfl⟩ | ⟨hcap, rfl⟩ := (execMoveRight_next_iff s t).1 h
    · refine ⟨len, ?_, fun hok => absurd rfl (hok _)⟩
      exact (execMoveRight_next_iff (s.withTapeShape len block) _).2 (.inl ⟨hcap, rfl⟩)
    · have hshape := movedRight_withTapeShape s len block
      refine ⟨(s.withTapeShape len block).movedRightTape.len, ?_, fun _ => ?_⟩
      · exact (execMoveRight_next_iff (s.withTapeShape len block) _).2 (.inr ⟨hcap, hshape.symm⟩)
      · rw [← hshape]
        exact ⟨hfits.movedRight hinit hcap, hfits'.movedRight hblock hcap⟩
  · have hother : exec i (s.withTapeShape len block) = .next (t.withTapeShape len block) := by
      rw [exec_withTapeShape (len := len) hright block hfits.1 hfits'.1, h, mapNext_next]
    exact ⟨len, hother, fun _ => ⟨hfits.exec hright h, hfits'.exec hright hother⟩⟩

/-- Settles O51: the step is the same instruction at both shapes, or the same halt. -/
theorem tapeLengthIsUnobservable : Obligations.TapeLengthIsUnobservable := by
  unfold Obligations.TapeLengthIsUnobservable
  intro s t len block hrun hr hinit hblock hcell hcell' hfits h
  cases hi : s.prog[s.pc]? with
  | none =>
    cases (step_of_no_instruction hr hrun hi).symm.trans h
    refine ⟨len, (s.withTapeShape len block).halt, ?_, .refl _, fun hrun' => by cases hrun'⟩
    exact step_of_no_instruction (s := s.withTapeShape len block) hr hrun hi
  | some i =>
    obtain ⟨len', hexec, hkept⟩ := exec_next_withTapeShape (len := len) hinit hblock
      ⟨hcell, fun c hc => (hfits c hc).1⟩ ⟨hcell', fun c hc => (hfits c hc).2⟩
      ((step_of_fetched hr hrun hi).symm.trans h)
    refine ⟨len', t.withTapeShape len' block, ?_, .refl _, fun hrun' => ?_⟩
    · exact (step_of_fetched (s := s.withTapeShape len block) hr hrun hi).trans hexec
    · obtain ⟨⟨hlt, hle⟩, hlt', hle'⟩ := hkept (by simp [hrun'])
      exact ⟨hlt, hlt', fun c hc => ⟨hle c hc, hle' c hc⟩⟩

end Sys2Proof.Machine
end
